-- ==== Sys2Proof/Word.lean ====
section
/-! DEFINITION. The word types of the block: byte, word and long are 8, 16 and 32 bits (00_scope.md R7, R10 and
its glossary), and a register number is one of eight (R7). -/

namespace Sys2Proof

/-- `u8`, one byte. -/
abbrev Byte := BitVec 8

/-- `u16`: an opcode, the status word, a word of memory (two bytes). -/
abbrev Word := BitVec 16

/-- `u32`: a register, an address, a long of memory (four bytes). -/
abbrev Long := BitVec 32

/-- The number of a data or an address register, 0 to 7 (R22, R25). -/
abbrev RegNum := Fin 8

/-- A sparse array keyed by numbers; a key that is not listed holds zero. Memory (R78) and the further control
registers (R35) are held in this form. -/
abbrev Cells (w : Nat) := List (Nat × BitVec w)

end Sys2Proof
end

