-- ==== Sys2Proof/Syntax.lean ====
section
/-! DEFINITION. The instructions of the opcode table (30_encoding.md R113, R126): two forms of ABCD. The source
register stands first, as in the assembler spelling `ABCD Dy,Dx` (R123). -/

namespace Sys2Proof

/-- One constructor per row of the opcode table. Register numbers are `Fin 8`, so every value of each field is legal
and no ill-formed operand can be written (R116). -/
inductive Instr where
  /-- `ABCD Dy,Dx` (R170): source `D[ry]`, destination `D[rx]`. -/
  | abcdReg (ry rx : RegNum)
  /-- `ABCD -(Ay),-(Ax)` (R171): source at `A[ry] - 1`, destination at `A[rx] - 1`. -/
  | abcdMem (ry rx : RegNum)
deriving DecidableEq, Repr

/-- The handler a present slot of the instruction table names (R117, R119). -/
inductive Handler where
  | abcdReg
  | abcdMem
deriving DecidableEq, Repr

/-- A present slot of the instruction table (R117, R121): both a mnemonic and a handler. -/
structure Entry where
  mnemonic : String
  handler  : Handler
deriving DecidableEq, Repr

/-- Why a list of bytes is not decoded. -/
inductive DecodeReject where
  /-- The slot of this opcode is absent (R120, R122). -/
  | noInstruction (opcode : Word)
  /-- Fewer than two bytes: no opcode word (R110). -/
  | truncated
deriving DecidableEq, Repr

end Sys2Proof
end

