-- ==== Sys2Proof/WellFormed.lean ====
section
/-! DEFINITION. When an opcode value is one of the block's 128 present slots (30_encoding.md R113, R115, R119), field by
field, and when an instruction is well formed: its slot, computed by R119's own formula, passes those checks. With
register numbers in `Fin 8` every instruction passes (R116: "Every value of each field is legal"). -/

namespace Sys2Proof

/-- `opcode[15:12] = 1100` (R115). -/
def lineIsAbcd (w : Word) : Bool := w.extractLsb' 12 4 == 0b1100#4

/-- `opcode[8] = 1` (R115). -/
def bit8IsSet (w : Word) : Bool := w.getLsbD 8

/-- `opcode[7:4] = 0000` (R115). -/
def bits7To4AreZero (w : Word) : Bool := w.extractLsb' 4 4 == 0#4

/-- The slot is present: all three fixed fields are ABCD's. -/
def slotPresent (w : Word) : Bool := lineIsAbcd w && bit8IsSet w && bits7To4AreZero w

/-- The slot of an instruction, by R119: `0xC100 + 0x200 * rx + 8 * rm + ry`. -/
def Instr.slot : Instr → Nat
  | .abcdReg ry rx => 0xC100 + 0x200 * rx.val + 8 * 0 + ry.val
  | .abcdMem ry rx => 0xC100 + 0x200 * rx.val + 8 * 1 + ry.val

/-- An instruction is well formed when its slot lies in the 16-bit table and is present. -/
def Instr.wellFormed (i : Instr) : Bool := decide (i.slot < 65536) && slotPresent (BitVec.ofNat 16 i.slot)

end Sys2Proof
end

