-- ==== Sys2Proof/Decode.lean ====
section
/-! DEFINITION. The instruction table and its lookup, the decoder and the encoder (30_encoding.md, 40_fetch_dispatch.md
R142). Decoding is total on bytes and rejects by name. -/

namespace Sys2Proof

/-- `ry = opcode[2:0]` (R116). -/
def ryField (w : Word) : RegNum := (w.extractLsb' 0 3).toFin

/-- `rx = opcode[11:9]` (R114, R116). -/
def rxField (w : Word) : RegNum := (w.extractLsb' 9 3).toFin

/-- The handler of a slot, or none where the slot is absent: the match and mask of R113 and R142. -/
def handlerOf (w : Word) : Option Handler :=
  if w &&& 0xF1F8#16 = 0xC100#16 then some .abcdReg
  else if w &&& 0xF1F8#16 = 0xC108#16 then some .abcdMem
  else none

/-- The mnemonic text of a present slot (R124). No rule reads it. -/
def mnemonicText (h : Handler) (w : Word) : String :=
  match h with
  | .abcdReg => "ABCD D" ++ toString (ryField w).val ++ ",D" ++ toString (rxField w).val
  | .abcdMem => "ABCD -(A" ++ toString (ryField w).val ++ "),-(A" ++ toString (rxField w).val ++ ")"

/-- `lookup` (R142), the source's `fetch_instruction_for_opcode`: none is `absent`. -/
def lookup (w : Word) : Option Entry :=
  (handlerOf w).map fun h => { mnemonic := mnemonicText h w, handler := h }

/-- The instruction a handler runs for an opcode: the handler with the operand fields it reads (R116). -/
def withOperands (h : Handler) (w : Word) : Instr :=
  match h with
  | .abcdReg => .abcdReg (ryField w) (rxField w)
  | .abcdMem => .abcdMem (ryField w) (rxField w)

/-- The instruction an opcode word selects, or none where the slot is absent. -/
def decodeWord (w : Word) : Option Instr := (handlerOf w).map fun h => withOperands h w

/-- The length in bytes of an instruction (R111): both forms are one word. -/
def Instr.length : Instr → Nat
  | .abcdReg _ _ => 2
  | .abcdMem _ _ => 2

/-- The word two consecutive bytes of memory form: most significant byte first (20_memory.md R79). -/
def wordOfBytes (hi lo : Byte) : Word := hi ++ lo

/-- The two bytes of a word as memory holds them: most significant byte first (R79). -/
def bytesOfWord (w : Word) : List Byte := [w.extractLsb' 8 8, w.extractLsb' 0 8]

/-- The decoder: the instruction at the front of a list of bytes, and the bytes after it (R110, R112). -/
def decode : List Byte → Except DecodeReject (Instr × List Byte)
  | hi :: lo :: rest =>
    match decodeWord (wordOfBytes hi lo) with
    | some i => .ok (i, rest)
    | none => .error (.noInstruction (wordOfBytes hi lo))
  | _ => .error .truncated

/-! The encoder, written from the bit table of R113. -/

/-- The mode bit `RM` (R113). -/
def Instr.modeBit : Instr → BitVec 1
  | .abcdReg _ _ => 0#1
  | .abcdMem _ _ => 1#1

/-- The destination register number `Rx` (R113). -/
def Instr.destReg : Instr → RegNum
  | .abcdReg _ rx => rx
  | .abcdMem _ rx => rx

/-- The source register number `Ry` (R113). -/
def Instr.sourceReg : Instr → RegNum
  | .abcdReg ry _ => ry
  | .abcdMem ry _ => ry

/-- `1100 Rx 1 0000 RM Ry` (R113). -/
def encodeWord (i : Instr) : Word :=
  0b1100#4 ++ (BitVec.ofFin i.destReg : BitVec 3) ++ 1#1 ++ 0b0000#4 ++ i.modeBit ++ (BitVec.ofFin i.sourceReg : BitVec 3)

/-- The bytes of an instruction, as they stand in memory (R110). -/
def encode (i : Instr) : List Byte := bytesOfWord (encodeWord i)

/-- The bytes of an instruction given as one number whose bit 0 is the least significant bit of the FIRST word and
whose later words' bits count on from it; every bit at or above `nbits` is zero. At least one word is laid out. -/
def bytesOfTableWord (nbits w : Nat) : List Byte :=
  (List.range (max 1 ((nbits + 15) / 16))).flatMap fun k => bytesOfWord (BitVec.ofNat 16 ((w % 2 ^ nbits) >>> (16 * k)))

/-- What the decoder reads from an instruction numbered as the opcode table numbers its bits. -/
def decodeTableWord (nbits w : Nat) : Option Instr :=
  match decode (bytesOfTableWord nbits w) with
  | .ok (i, _) => some i
  | .error _ => none

end Sys2Proof
end

