-- ==== Sys2Proof/Config.lean ====
section
/-! DEFINITION. What is fixed for the block (00_scope.md R7) and what the spec leaves to the environment or to the
implementation (R8). The constants with no body are free: nothing in Lean can evaluate them. The parameter
`abcd_v` is an argument of `ccAbcd` and is given by the state's own field `abcdVDiffers` (log 2); `ITABLE` has the
default of R120 and stands in Decode.lean. -/

namespace Sys2Proof.Config

/-- Entries of the page directory (R7, R63). -/
def dirEntries : Nat := 1024

/-- Entries of a page table (R7, R64). -/
def tblEntries : Nat := 1024

/-- Bytes in a page (R7, R65). -/
def pageSize : Nat := 4096

/-- Slots of the instruction table (R7, R117). -/
def tableSlots : Nat := 65536

/-- FREE VALUE (log 1): the environment's answer to the `n`-th request for storage, `alloc_ok` of 20_memory.md R73,
wherever the state does not list it. "The block does not constrain it." -/
opaque allocOk : Nat → Bool

/-- FREE VALUE (log 4): whether the `n`-th control register beside VBR, SSP, ISP and MSP belongs to `CTRL_REGS`
(10_state.md R35 leaves the rest of the set open). -/
opaque hasOtherCtrl : Nat → Bool

end Sys2Proof.Config
end

