-- ==== Sys2Proof/Machine/State.lean ====
section
/-! DEFINITION. The state of the block (10_state.md R20), the reasons a transaction stops (60_exceptions.md R211 and
00_scope.md R12), and the state after reset (10_state.md R38, 70_reset_and_hazards.md R240). -/

namespace Sys2Proof.Machine

/-- The bytes of memory: addresses strictly rising, no zero byte listed; an unlisted byte reads 0x00 (20_memory.md
R65, R78). -/
abbrev Memory := List Host.Cell

/-- The index of a page: directory index and table index (R62). -/
abbrev PageIndex := BitVec 10 × BitVec 10

/-- A raw storage location `(d, t, o)`: what `translate` returns (R74). -/
structure Location where
  dir    : BitVec 10
  tbl    : BitVec 10
  offset : BitVec 12
deriving DecidableEq, Repr

/-- What the MMU holds while it is `READY` (R66): `TABLES`, `PAGES` (both in rising order, no repeats) and the bytes. -/
structure Store where
  tables : List (BitVec 10)
  pages  : List PageIndex
  mem    : Memory
deriving DecidableEq, Repr

/-- The MMU: its lifecycle state, and the store that exists only when it is `READY` (R66). -/
inductive Mmu where
  | uninit
  | ready (st : Store)
deriving DecidableEq, Repr

/-- The supervisor-only control registers (10_state.md R34, R35): four named cells, and the rest of `CTRL_REGS` as a
sparse list keyed by a number (an unlisted one holds zero). -/
structure ControlRegs where
  vbr    : Long
  ssp    : Long
  isp    : Long
  msp    : Long
  others : Cells 32
deriving DecidableEq, Repr

/-- The whole state (R20), and three fields of the model's own: the environment's draws (R73, log 1) and the parameter
`abcd_v` (00_scope.md R8, log 2). -/
structure State where
  /-- `D[0..7]` (R22). -/
  d : Vector Long 8
  /-- `A[0..7]` (R25). -/
  a : Vector Long 8
  /-- `PC` (R27). -/
  pc : Long
  /-- `SR`, the packed status word (R28). -/
  sr : Word
  /-- `CTRL` (R34). -/
  ctrl : ControlRegs
  /-- `IR`, the opcode latch (R36). -/
  ir : Word
  /-- The MMU (R66). -/
  mmu : Mmu
  /-- The environment's next draws `alloc_ok`, the next one first; past the end of the list a draw is the free value
  `Config.allocOk` (log 1). -/
  draws : List Bool
  /-- How many draws have been taken (log 1). -/
  drawCount : Nat
  /-- The parameter `abcd_v` (41_abcd.md R166): the pairs `(r, rr)` at which it differs from its default; none where it
  is the default. No transaction changes it (log 2). -/
  abcdVDiffers : List (Byte × Byte)
deriving DecidableEq, Repr

/-- The two faults of the block (60_exceptions.md R211). Each carries the state at the fault, which R219 defines: what
ran before the fault stays, nothing is rolled back. -/
inductive Fault where
  /-- `NoInstruction(w)` (R212): raised by `step` when the opcode's slot is absent. Safe: the spec itself ends the run
  there (R149). -/
  | noInstruction (opcode : Word) (final : State)
  /-- `AllocFailure` (R213): raised by `mmu_initialize` (no address), the six accesses, the fetch and the operand reads
  of the memory form (the address whose translation failed) when the environment refuses storage. Safe: the draw is
  free, so a claim must allow it or assume the draws. -/
  | allocFailure (address : Option Long) (final : State)
deriving DecidableEq, Repr

/-- Requests the source gives no meaning (00_scope.md R12): the block has no transition. Not a fault. -/
inductive Refusal where
  /-- An instruction of the table without a meaning in this model; no arm answers it. Safe. -/
  | notModelled (mnemonic : String)
  /-- `translate`, an access or a step while the MMU is `UNINIT` (20_memory.md R77). Safe. -/
  | mmuNotInitialized
  /-- `mmu_initialize` while the MMU is `READY` (R77). Safe. -/
  | mmuAlreadyInitialized
  /-- The host named a control register that is no member of `CTRL_REGS` (10_state.md R35). Safe. -/
  | noSuchControlRegister (n : Nat)
deriving DecidableEq, Repr

/-- The four named control registers and the rest, all zero (R38). -/
def ControlRegs.reset : ControlRegs := { vbr := 0, ssp := 0, isp := 0, msp := 0, others := [] }

/-- The state right after reset (R38, R240): every register-file cell zero, the MMU `UNINIT`. No draw is listed and
none has been taken (log 1); `abcd_v` is its default (log 2). -/
def State.reset : State :=
  { d := Vector.replicate 8 0
    a := Vector.replicate 8 0
    pc := 0
    sr := 0
    ctrl := .reset
    ir := 0
    mmu := .uninit
    draws := []
    drawCount := 0
    abcdVDiffers := [] }

end Sys2Proof.Machine
end

