-- ==== Sys2Proof/Machine/Cells.lean ====
section
/-! DEFINITION. Sparse arrays in one canonical form: keys strictly rising and no zero value listed, so that equal
arrays are equal lists. Memory and the further control registers are read and written through these. -/

namespace Sys2Proof.Machine

/-- Put an element into a list that rises by `key`. -/
def insertBy {α : Type} (key : α → Nat) (x : α) : List α → List α
  | [] => [x]
  | y :: ys => if key x < key y then x :: y :: ys else y :: insertBy key x ys

/-- The value at a key: zero where it is not listed. -/
def cellsGet {w : Nat} : Cells w → Nat → BitVec w
  | [], _ => 0
  | (k, v) :: rest, n => if n = k then v else cellsGet rest n

/-- Write a value at a key; writing zero removes the entry. -/
def cellsSet {w : Nat} (m : Cells w) (n : Nat) (v : BitVec w) : Cells w :=
  let cleared := m.filter fun c => c.1 != n
  if v = 0 then cleared else insertBy Prod.fst (n, v) cleared

/-- The canonical form: keys strictly rising, no zero listed. -/
abbrev cellsWf {w : Nat} (m : Cells w) : Prop := m.Pairwise (fun x y => x.1 < y.1) ∧ ∀ c ∈ m, c.2 ≠ 0

/-- The canonical form of memory. -/
abbrev Memory.wf (m : Memory) : Prop := cellsWf (w := 8) m

end Sys2Proof.Machine
end

