-- ==== Sys2Proof/Machine/Mmu.lean ====
section
/-! DEFINITION. The paged store of the MMU as data (20_memory.md): the split of an address, what is present, the
abstract byte `Mem(a)`, and the effect of allocating a table or a page. The draws that allocation asks for are in
Machine/Ops.lean. -/

namespace Sys2Proof.Machine

/-- The directory index `a[31:22]` (R62). -/
def dirIndex (a : Long) : BitVec 10 := a.extractLsb' 22 10

/-- The table index `a[21:12]` (R62). -/
def tblIndex (a : Long) : BitVec 10 := a.extractLsb' 12 10

/-- The page offset `a[11:0]` (R62). -/
def pageOffset (a : Long) : BitVec 12 := a.extractLsb' 0 12

/-- The page an address lies in. -/
def pageOf (a : Long) : PageIndex := (dirIndex a, tblIndex a)

/-- The location of an address (R74, R75): it never changes. -/
def splitAddress (a : Long) : Location := { dir := dirIndex a, tbl := tblIndex a, offset := pageOffset a }

/-- The address a location is the location of (R75: the map is a bijection). -/
def Location.address (l : Location) : Long := l.dir ++ l.tbl ++ l.offset

/-- The order in which the store lists its pages. -/
def pageKey (p : PageIndex) : Nat := p.1.toNat * 1024 + p.2.toNat

/-- The byte `Mem(a)` of R78: the stored byte of a present page, zero elsewhere. -/
def Store.byteAt (st : Store) (a : Long) : Byte :=
  if pageOf a ∈ st.pages then cellsGet st.mem a.toNat else 0

/-- Store one byte into a present page. -/
def Store.setByte (st : Store) (a : Long) (v : Byte) : Store := { st with mem := cellsSet st.mem a.toNat v }

/-- `TABLES <- TABLES + (d)` (R74): a new table, all its entries absent. -/
def Store.addTable (st : Store) (d : BitVec 10) : Store := { st with tables := insertBy BitVec.toNat d st.tables }

/-- `PAGES <- PAGES + ((d, t))` and every byte of the page `0x00` (R65, R74). -/
def Store.addPage (st : Store) (p : PageIndex) : Store :=
  { st with
    pages := insertBy pageKey p st.pages
    mem := st.mem.filter fun c => pageOf (BitVec.ofNat 32 c.1) != p }

/-- The store after the table of an address is there. -/
def Store.withTable (st : Store) (a : Long) : Store :=
  if dirIndex a ∈ st.tables then st else st.addTable (dirIndex a)

/-- The store after the page of an address is there. -/
def Store.withPage (st : Store) (a : Long) : Store :=
  if pageOf a ∈ st.pages then st else st.addPage (pageOf a)

/-- The store after a translation of an address that no draw stopped: table first, then page (R74). -/
def Store.touch (st : Store) (a : Long) : Store := (st.withTable a).withPage a

/-- The store after translating several addresses one after another (R80). -/
def Store.touchAll (st : Store) : List Long → Store
  | [] => st
  | a :: rest => (st.touch a).touchAll rest

/-- How many draws one translation takes: one for an absent table, one for an absent page (R74, R95). -/
def Store.drawsFor (st : Store) (a : Long) : Nat :=
  (if dirIndex a ∈ st.tables then 0 else 1) + (if pageOf a ∈ st.pages then 0 else 1)

/-- How many draws translating several addresses one after another takes. -/
def Store.drawsForAll (st : Store) : List Long → Nat
  | [] => 0
  | a :: rest => st.drawsFor a + (st.touch a).drawsForAll rest

/-- The store right after a successful `mmu_initialize` (R70): the table for directory entry 0 and the page `(0, 0)`. -/
def Store.fresh : Store := { tables := [0], pages := [(0, 0)], mem := [] }

end Sys2Proof.Machine
end

