-- ==== Sys2Proof/Machine/Ops.lean ====
section
/-! DEFINITION. The named operations every transaction is built from: sequencing of outcomes, raising a fault, the
environment's draws, the register file, translation, the six memory accesses and the lifecycle of the MMU. -/

namespace Sys2Proof.Machine

/-- An outcome of an operation of the block (00_scope.md R12) whose result is an `α`. -/
abbrev Result (α : Type) := Host.Outcome α Fault Refusal

/-- Run one operation after another; the first fault or refusal ends the whole (40_fetch_dispatch.md R150). -/
def andThen {α β : Type} (o : Result α) (f : α → Result β) : Result β :=
  match o with
  | .next x => f x
  | .fault r => .fault r
  | .refused r => .refused r

/-! ## Taking a fault

The block has no exception mechanism (60_exceptions.md R210): taking a fault saves nothing, changes no mode and jumps
nowhere (R218). The fault is handed to the caller with the state as it stands (R219). There is no return (R220). -/

/-- `raise NoInstruction(w)` (R212). -/
def raiseNoInstruction {α : Type} (w : Word) (s : State) : Result α := .fault (.noInstruction w s)

/-- `raise AllocFailure(a)` (R213). -/
def raiseAllocFailure {α : Type} (address : Option Long) (s : State) : Result α := .fault (.allocFailure address s)

/-! ## The register file (10_state.md) -/

/-- `D[n]` (R22). -/
def State.dReg (s : State) (n : RegNum) : Long := s.d[n]

/-- `A[n]` (R25). -/
def State.aReg (s : State) (n : RegNum) : Long := s.a[n]

/-- `D[n] <- v`. -/
def State.setD (s : State) (n : RegNum) (v : Long) : State := { s with d := s.d.set n v }

/-- `A[n] <- v`. -/
def State.setA (s : State) (n : RegNum) (v : Long) : State := { s with a := s.a.set n v }

/-- `PC <- v`. -/
def State.setPc (s : State) (v : Long) : State := { s with pc := v }

/-- `SR <- v`, the whole word. -/
def State.setSr (s : State) (v : Word) : State := { s with sr := v }

/-- `IR <- w` (R36). -/
def State.setIr (s : State) (w : Word) : State := { s with ir := w }

/-- Write all the control registers at once. -/
def State.setCtrl (s : State) (c : ControlRegs) : State := { s with ctrl := c }

/-- Replace the MMU. -/
def State.setMmu (s : State) (m : Mmu) : State := { s with mmu := m }

/-- `PC <- PC +_32 n` (40_fetch_dispatch.md R145, R146). -/
def advancePc (n : Nat) (s : State) : State := s.setPc (s.pc + BitVec.ofNat 32 n)

/-! ## The environment's draws (20_memory.md R73, log 1) -/

/-- The environment's answer to the `k`-th storage request from here on. -/
def State.drawAt (s : State) (k : Nat) : Bool := s.draws[k]?.getD (Config.allocOk (s.drawCount + k))

/-- The state after `n` draws have been taken. -/
def State.dropDraws (s : State) (n : Nat) : State := { s with draws := s.draws.drop n, drawCount := s.drawCount + n }

/-- The next `n` draws are all granted. -/
def State.granted (s : State) (n : Nat) : Prop := ∀ k < n, s.drawAt k = true

/-- Ask the environment for storage: `draw alloc_ok; if not alloc_ok: raise AllocFailure` (R73, R74). -/
def askStorage (address : Option Long) (s : State) : Result State :=
  if s.drawAt 0 then .next (s.dropDraws 1) else raiseAllocFailure address (s.dropDraws 1)

/-! ## Translation (R74) -/

/-- Allocate the page table of an address if its directory entry is absent. -/
def ensureTable (a : Long) (s : State) : Result State :=
  match s.mmu with
  | .uninit => .refused .mmuNotInitialized
  | .ready st =>
    if dirIndex a ∈ st.tables then .next s
    else andThen (askStorage (some a) s) fun t => .next (t.setMmu (.ready (st.addTable (dirIndex a))))

/-- Allocate the page of an address, zero-filled, if its table entry is absent. -/
def ensurePage (a : Long) (s : State) : Result State :=
  match s.mmu with
  | .uninit => .refused .mmuNotInitialized
  | .ready st =>
    if pageOf a ∈ st.pages then .next s
    else andThen (askStorage (some a) s) fun t => .next (t.setMmu (.ready (st.addPage (pageOf a))))

/-- `translate(a)` (R74): the table before the page; `refused` while the MMU is `UNINIT` (R77). -/
def translate (a : Long) (s : State) : Result (State × Location) :=
  andThen (ensureTable a s) fun t => andThen (ensurePage a t) fun u => .next (u, splitAddress a)

/-- The translations of one access, in ascending order (R80). -/
def translateAll : List Long → State → Result State
  | [], s => .next s
  | a :: rest, s => andThen (translate a s) fun p => translateAll rest p.1

/-- The addresses `a, a +_32 1, …` of the `n` bytes of an access (R80): they wrap modulo 2^32. -/
def span (a : Long) (n : Nat) : List Long := (List.range n).map fun i => a + BitVec.ofNat 32 i

/-! ## The six accesses (R80 to R82) -/

/-- The byte `Mem(a)` as the state shows it (R78); zero while there is no store (no access reaches that case). -/
def State.byteAt (s : State) (a : Long) : Byte :=
  match s.mmu with
  | .uninit => 0
  | .ready st => st.byteAt a

/-- `BYTES at a <- v`. -/
def State.setByte (s : State) (a : Long) (v : Byte) : State :=
  match s.mmu with
  | .uninit => s
  | .ready st => s.setMmu (.ready (st.setByte a v))

/-- `read_byte(a) = MemRead(a, 1)` (R81). -/
def readByte (a : Long) (s : State) : Result (State × Byte) :=
  andThen (translateAll (span a 1) s) fun t => .next (t, t.byteAt a)

/-- `read_word(a) = MemRead(a, 2)` (R81), most significant byte first. -/
def readWord (a : Long) (s : State) : Result (State × Word) :=
  andThen (translateAll (span a 2) s) fun t => .next (t, t.byteAt a ++ t.byteAt (a + 1))

/-- `read_long(a) = MemRead(a, 4)` (R81), most significant byte first. -/
def readLong (a : Long) (s : State) : Result (State × Long) :=
  andThen (translateAll (span a 4) s) fun t =>
    .next (t, t.byteAt a ++ t.byteAt (a + 1) ++ t.byteAt (a + 2) ++ t.byteAt (a + 3))

/-- `write_byte(a, v) = MemWrite(a, 1, v)` (R82). -/
def writeByte (a : Long) (v : Byte) (s : State) : Result State :=
  andThen (translateAll (span a 1) s) fun t => .next (t.setByte a v)

/-- `write_word(a, v) = MemWrite(a, 2, v)` (R82): both translations before the first byte is stored (R80). -/
def writeWord (a : Long) (v : Word) (s : State) : Result State :=
  andThen (translateAll (span a 2) s) fun t =>
    .next ((t.setByte a (v.extractLsb' 8 8)).setByte (a + 1) (v.extractLsb' 0 8))

/-- `write_long(a, v) = MemWrite(a, 4, v)` (R82): all translations before the first byte is stored (R80). -/
def writeLong (a : Long) (v : Long) (s : State) : Result State :=
  andThen (translateAll (span a 4) s) fun t =>
    .next ((((t.setByte a (v.extractLsb' 24 8)).setByte (a + 1) (v.extractLsb' 16 8)).setByte (a + 2)
      (v.extractLsb' 8 8)).setByte (a + 3) (v.extractLsb' 0 8))

/-! ## The lifecycle of the MMU (R70 to R72, R77) -/

/-- `mmu_initialize` (R70, R71): three allocations, directory, table and page; the MMU stays `UNINIT`, holding
nothing, until all three are granted. -/
def mmuInitialize (s : State) : Result State :=
  match s.mmu with
  | .ready _ => .refused .mmuAlreadyInitialized
  | .uninit =>
    andThen (askStorage none s) fun t =>
      andThen (askStorage none t) fun u =>
        andThen (askStorage none u) fun v => .next (v.setMmu (.ready .fresh))

/-- `mmu_destroy` (R72): everything is released; a no-op while `UNINIT`. -/
def mmuDestroy (s : State) : State := s.setMmu .uninit

/-- `reset` (70_reset_and_hazards.md R240): every register-file cell to its reset value, the MMU released and
`UNINIT`. The environment's draws and the parameter `abcd_v` are no part of the block's state: they stay (log 16). -/
def resetBlock (s : State) : State := 
  { State.reset with draws := s.draws, drawCount := s.drawCount, abcdVDiffers := s.abcdVDiffers }

end Sys2Proof.Machine
end

