-- ==== Sys2Proof/Machine/Flags.lean ====
section
/-! DEFINITION. The status word's fields and their accessors (10_state.md R28 to R33), the decimal adder (sub-block
`m68k_alu_abcd`, 41_abcd.md R161) and the condition-code update (sub-block `m68k_cond_code_update`, R165 to R169). -/

namespace Sys2Proof.Machine

/-- The single-bit flags of the status word (R29, R30). -/
inductive Flag where
  | c
  | v
  | z
  | n
  | x
  | m
  | s
deriving DecidableEq, Repr

/-- The bit a flag stands at (R29, R30; log 3). -/
def flagBit : Flag → Nat
  | .c => 0
  | .v => 1
  | .z => 2
  | .n => 3
  | .x => 4
  | .m => 12
  | .s => 13

/-- Read a flag of a status word (R31). -/
def readFlag (f : Flag) (sr : Word) : Bool := sr.getLsbD (flagBit f)

/-- `SR' = (SR & ~(1 << k)) | (b << k)` (R31). -/
def writeFlag (f : Flag) (b : Bool) (sr : Word) : Word :=
  (sr &&& ~~~(1#16 <<< flagBit f)) ||| ((BitVec.ofBool b).setWidth 16 <<< flagBit f)

/-- Replace a field of `n` bits of a status word (R31, last sentence). -/
def writeSrField {n : Nat} (lo : Nat) (v : BitVec n) (sr : Word) : Word :=
  (sr &&& ~~~((BitVec.allOnes n).setWidth 16 <<< lo)) ||| (v.setWidth 16 <<< lo)

/-- `I = SR[10:8]`, the interrupt priority mask (R30). -/
def readMask (sr : Word) : BitVec 3 := sr.extractLsb' 8 3

/-- `SR.I <- v`. -/
def writeMask (v : BitVec 3) (sr : Word) : Word := writeSrField 8 v sr

/-- `T = SR[15:14]`, trace enable (R30). -/
def readTrace (sr : Word) : BitVec 2 := sr.extractLsb' 14 2

/-- `SR.T <- v`. -/
def writeTrace (v : BitVec 2) (sr : Word) : Word := writeSrField 14 v sr

/-- The condition code register `SR[7:0]` (R28). -/
def ccr (sr : Word) : Byte := sr.extractLsb' 0 8

/-- The bits of the status word no condition flag stands at: the supervisor byte and `SR[7:5]` (R30, R33). -/
def beyondFlags (sr : Word) : BitVec 11 := sr.extractLsb' 5 11

/-- A flag of the state's status word. -/
def State.flag (s : State) (f : Flag) : Bool := readFlag f s.sr

/-! ## The decimal adder (R161, R162) -/

/-- Step 2: `r = trunc_8(dst + src + x)`. -/
def abcdSum (dst src : Byte) (x : Bool) : Byte := dst + src + (BitVec.ofBool x).setWidth 8

/-- Step 3: `bc`, the binary carries out of bits 3 and 7. -/
def abcdBinaryCarry (dst src r : Byte) : Byte := ((dst &&& src) ||| (~~~r &&& dst) ||| (~~~r &&& src)) &&& 0x88#8

/-- Step 4: `dc`, from the 9-bit sum `zext_9(r) + 0x66` (R162). -/
def abcdDecimalCarry (r : Byte) : Byte :=
  ((((r.setWidth 9 + 0x66#9) ^^^ r.setWidth 9) &&& 0x110#9) >>> 1).setWidth 8

/-- Step 5: `corf = (bc | dc) - ((bc | dc) >> 2)`. -/
def abcdCorrection (bc dc : Byte) : Byte := (bc ||| dc) - ((bc ||| dc) >>> 2)

/-- `abcd_core(dst, src, x)` (R161): the raw sum `r`, the binary carries `bc` and the result `rr`. -/
def abcdCore (dst src : Byte) (x : Bool) : Byte × Byte × Byte :=
  let r := abcdSum dst src x
  let bc := abcdBinaryCarry dst src r
  let corf := abcdCorrection bc (abcdDecimalCarry r)
  (r, bc, r + corf)

/-- The result byte of the decimal addition. -/
def abcdResult (dst src : Byte) (x : Bool) : Byte := (abcdCore dst src x).2.2

/-! ## The condition-code update -/

/-- The decimal carry-out, `((bc | (r & ~rr)) >> 7) & 1` (R165). -/
def abcdCarry (r bc rr : Byte) : Bool := (bc ||| (r &&& ~~~rr)).getLsbD 7

/-- The default of `abcd_v` (R166): `((~r & rr) >> 7) & 1`. -/
def abcdVDefault (r rr : Byte) : Bool := (~~~r &&& rr).getLsbD 7

/-- `abcd_v(r, rr)`, the configuration function of R166, given as the pairs at which it differs from its default: every
function of two bytes can be given so, and no pairs is the default (log 2). -/
def abcdV (differs : List (Byte × Byte)) (r rr : Byte) : Bool :=
  if (r, rr) ∈ differs then !abcdVDefault r rr else abcdVDefault r rr

/-- `cc_abcd(r, bc, rr)` (R165 to R169), with `abcd_v` as its first argument: C and X, V, Z (cleared only), N; every
other bit of the word is kept. -/
def ccAbcd (abcd_v : Byte → Byte → Bool) (r bc rr : Byte) (sr : Word) : Word :=
  let sr1 := writeFlag .x (abcdCarry r bc rr) (writeFlag .c (abcdCarry r bc rr) sr)
  let sr2 := writeFlag .v (abcd_v r rr) sr1
  let sr3 := if rr ≠ 0 then writeFlag .z false sr2 else sr2
  writeFlag .n (rr.getLsbD 7) sr3

/-- The decimal carry-out of the whole addition, as C and X receive it. -/
def abcdCarryOut (dst src : Byte) (x : Bool) : Bool :=
  abcdCarry (abcdCore dst src x).1 (abcdCore dst src x).2.1 (abcdCore dst src x).2.2

/-- Set the five flags from the two operands and the extend flag read before (R169). -/
def State.setAbcdFlags (s : State) (dst src : Byte) (x : Bool) : State :=
  s.setSr (ccAbcd (abcdV s.abcdVDiffers) (abcdCore dst src x).1 (abcdCore dst src x).2.1 (abcdCore dst src x).2.2 s.sr)

end Sys2Proof.Machine
end

