-- ==== Sys2Proof/Machine/Operands.lean ====
section
/-! DEFINITION. The views of a register (10_state.md R23, R24) and the operand forms of the instructions: the low byte
of a data register, and the byte an address register points to after its pre-decrement (41_abcd.md R170, R171). -/

namespace Sys2Proof.Machine

/-- The lowest bit of byte view `k` (R23): view 0 is the most significant byte, view 3 the low byte. -/
def byteViewLow (k : Fin 4) : Nat := 24 - 8 * k.val

/-- The lowest bit of word view `k` (R23): view 0 is the high half, view 1 the low word. -/
def wordViewLow (k : Fin 2) : Nat := 16 - 16 * k.val

/-- The `n` bits of a long from bit `lo` up. -/
def readBits (n : Nat) (v : Long) (lo : Nat) : BitVec n := v.extractLsb' lo n

/-- Replace exactly the `n` bits of a long from bit `lo` up (R24). -/
def writeBits {n : Nat} (v : Long) (lo : Nat) (x : BitVec n) : Long :=
  (v &&& ~~~((BitVec.allOnes n).setWidth 32 <<< lo)) ||| (x.setWidth 32 <<< lo)

/-- `B[k]` (R23). -/
def byteView (k : Fin 4) (v : Long) : Byte := readBits 8 v (byteViewLow k)

/-- `B[k] <- x` (R24). -/
def writeByteView (k : Fin 4) (x : Byte) (v : Long) : Long := writeBits v (byteViewLow k) x

/-- `W[k]` (R23). -/
def wordView (k : Fin 2) (v : Long) : Word := readBits 16 v (wordViewLow k)

/-- `W[k] <- x` (R24). -/
def writeWordView (k : Fin 2) (x : Word) (v : Long) : Long := writeBits v (wordViewLow k) x

/-- `D[n].b`, the low byte (R23: `B[3]`). -/
def State.dByte (s : State) (n : RegNum) : Byte := byteView 3 (s.dReg n)

/-- `D[n].b <- x`: bits 31:8 are kept (R24). -/
def State.setDByte (s : State) (n : RegNum) (x : Byte) : State := s.setD n (writeByteView 3 x (s.dReg n))

/-- `A[n] <- A[n] -_32 1`, the pre-decrement of a byte operand: by 1 for every register, modulo 2^32 (R171). -/
def preDecrement (n : RegNum) (s : State) : State := s.setA n (s.aReg n - 1)

/-- The operand form `-(An)`, read: decrement the register, then read the byte it points to (R171). If the read
faults, the decrement stays made (60_exceptions.md R219). -/
def readPreDecremented (n : RegNum) (s : State) : Result (State × Byte) :=
  readByte ((preDecrement n s).aReg n) (preDecrement n s)

/-- The address the source operand of `ABCD -(Ay),-(Ax)` is read from. -/
def sourceAddress (ry : RegNum) (s : State) : Long := (preDecrement ry s).aReg ry

/-- The address the destination operand of `ABCD -(Ay),-(Ax)` is read from and the result stored to: `A[rx]` after
the source register's pre-decrement and then its own (R171, corner case (a) where `rx = ry`). -/
def destAddress (ry rx : RegNum) (s : State) : Long := (preDecrement rx (preDecrement ry s)).aReg rx

end Sys2Proof.Machine
end

