-- ==== Sys2Proof/Machine/Abcd.lean ====
section
/-! DEFINITION. The meanings of the two instructions (41_abcd.md R170, R171): the handlers `ABCD_REG` and `ABCD_MEM`.
A handler reads neither PC nor the instruction table; the step advances PC (R173). The operand fields come with the
instruction, decoded from the opcode the fetch latched in IR (R116, log 7). -/

namespace Sys2Proof.Machine

/-- `ABCD Dy,Dx` (R170). No fault: it touches no memory. -/
def execAbcdReg (ry rx : RegNum) (s : State) : Result State :=
  let x := s.flag .x
  let src := s.dByte ry
  let dst := s.dByte rx
  .next ((s.setDByte rx (abcdResult dst src x)).setAbcdFlags dst src x)

/-- `ABCD -(Ay),-(Ax)` (R171): source first, then destination; the result goes to the destination byte, and the flags
are written last. Either read may end in `AllocFailure`; the write touches a page the read has touched. -/
def execAbcdMem (ry rx : RegNum) (s : State) : Result State :=
  let x := s.flag .x
  andThen (readPreDecremented ry s) fun p =>
    andThen (readPreDecremented rx p.1) fun q =>
      andThen (writeByte (q.1.aReg rx) (abcdResult q.2 p.2 x) q.1) fun t => .next (t.setAbcdFlags q.2 p.2 x)

end Sys2Proof.Machine
end

