-- ==== Sys2Proof/Machine/Dispatch.lean ====
section
/-! DEFINITION. One arm per constructor of Instr: the handler the instruction table names (30_encoding.md R119). -/

namespace Sys2Proof.Machine

def exec (i : Instr) (s : State) : Host.Outcome State Fault Refusal :=
  match i with
  | .abcdReg ry rx => Sys2Proof.Machine.execAbcdReg ry rx s
  | .abcdMem ry rx => Sys2Proof.Machine.execAbcdMem ry rx s

end Sys2Proof.Machine
end

