-- ==== Sys2Proof/Machine/Fetch.lean ====
section
/-! DEFINITION. The fetch stage and the dispatch of one opcode (40_fetch_dispatch.md R141 to R145), and the storing of
an instruction where the next fetch finds it. -/

namespace Sys2Proof.Machine

/-- `ifetch` (R141): the word at PC by an ordinary word read, latched in IR. -/
def ifetch (s : State) : Result (State × Word) :=
  andThen (readWord s.pc s) fun p => .next (p.1.setIr p.2, p.2)

/-- Lookup, execute and advance (R140, R143 to R145): an absent slot raises `NoInstruction` with PC unchanged. -/
def dispatchOpcode (w : Word) (s : State) : Result State :=
  match decodeWord w with
  | none => raiseNoInstruction w s
  | some i => andThen (exec i s) fun t => .next (advancePc i.length t)

/-- The store an MMU holds, a fresh one where it is `UNINIT`. -/
def readyStore : Mmu → Store
  | .uninit => .fresh
  | .ready st => st

/-- Store bytes at rising addresses, their pages present, without taking a draw. -/
def placeBytes : List Byte → Long → Store → Store
  | [], _, st => st
  | b :: rest, a, st => placeBytes rest (a + 1) ((st.touch a).setByte a b)

/-- The host's preparation of one instruction (70_reset_and_hazards.md R243, log 8): the MMU made `READY`, the bytes
written at PC, and the next four draws granted, as many as one instruction's operands can ask for. -/
def placeInstruction (bytes : List Byte) (s : State) : State :=
  { s with
    mmu := .ready (placeBytes bytes s.pc (readyStore s.mmu))
    draws := [true, true, true, true] ++ s.draws }

end Sys2Proof.Machine
end

