-- ==== Sys2Proof/Machine/Step.lean ====
section
/-! DEFINITION. The step (40_fetch_dispatch.md R140): fetch, lookup, execute, advance PC. -/

namespace Sys2Proof.Machine

/-- `step()` (R140). `refused` while the MMU is `UNINIT`: the fetch is an MMU access (20_memory.md R77). -/
def step (s : State) : Host.Outcome State Fault Refusal :=
  andThen (ifetch s) fun p => dispatchOpcode p.2 p.1

/-- The state with one instruction, numbered as the opcode table numbers its bits, stored where the step fetches next
(log 8). -/
def State.withFetchWord (s : State) (nbits w : Nat) : State := placeInstruction (bytesOfTableWord nbits w) s

end Sys2Proof.Machine
end

