-- ==== Sys2Proof/Machine/HostInterface.lean ====
section
/-! DEFINITION. The interface to the host (42_host_interface.md): every operation of R190 as a request, its reply, and
the transaction that runs it. Each is one atomic transition (R88, R196). -/

namespace Sys2Proof.Machine

/-- A data or an address register. -/
inductive GeneralReg where
  | d (n : RegNum)
  | a (n : RegNum)
deriving DecidableEq, Repr

/-- The name of a control register (10_state.md R35): `other n` is the `n`-th of those beside the four named ones. -/
inductive CtrlName where
  | vbr
  | ssp
  | isp
  | msp
  | other (n : Nat)
deriving DecidableEq, Repr

/-- The operations the block offers its host (R190); the register accessors are those of R192. `IR` has none. -/
inductive Request where
  | mmuInitialize
  | mmuDestroy
  | readByte (a : Long)
  | readWord (a : Long)
  | readLong (a : Long)
  | writeByte (a : Long) (v : Byte)
  | writeWord (a : Long) (v : Word)
  | writeLong (a : Long) (v : Long)
  | lookup (opcode : Word)
  | getReg (r : GeneralReg)
  | setReg (r : GeneralReg) (v : Long)
  | getRegWord (r : GeneralReg) (k : Fin 2)
  | setRegWord (r : GeneralReg) (k : Fin 2) (v : Word)
  | getRegByte (r : GeneralReg) (k : Fin 4)
  | setRegByte (r : GeneralReg) (k : Fin 4) (v : Byte)
  | getPc
  | setPc (v : Long)
  | getSr
  | setSr (v : Word)
  | getFlag (f : Flag)
  | setFlag (f : Flag) (b : Bool)
  | getMask
  | setMask (v : BitVec 3)
  | getTrace
  | setTrace (v : BitVec 2)
  | getCtrl (n : CtrlName)
  | setCtrl (n : CtrlName) (v : Long)
  | step
  | reset
deriving DecidableEq, Repr

/-- What a transaction hands back (R193, R197): nothing, a number of the stated width, or a table entry (none is
`absent`). -/
inductive Reply where
  | done
  | value (width : Nat) (v : BitVec width)
  | entry (e : Option Entry)
deriving DecidableEq, Repr

/-- Read a general register. -/
def State.getReg (s : State) : GeneralReg → Long
  | .d n => s.dReg n
  | .a n => s.aReg n

/-- Write a general register. -/
def State.setReg (s : State) (r : GeneralReg) (v : Long) : State :=
  match r with
  | .d n => s.setD n v
  | .a n => s.setA n v

/-- A control register's value (R34). -/
def ctrlGet (c : ControlRegs) : CtrlName → Long
  | .vbr => c.vbr
  | .ssp => c.ssp
  | .isp => c.isp
  | .msp => c.msp
  | .other n => cellsGet c.others n

/-- Write a control register: plain storage, each cell on its own (R34, R35). -/
def ctrlSet (c : ControlRegs) (r : CtrlName) (v : Long) : ControlRegs :=
  match r with
  | .vbr => { c with vbr := v }
  | .ssp => { c with ssp := v }
  | .isp => { c with isp := v }
  | .msp => { c with msp := v }
  | .other n => { c with others := cellsSet c.others n v }

/-- An access to a control register by name: a name outside `CTRL_REGS` names no register of the block (R35, log 4). -/
def onCtrl {α : Type} (r : CtrlName) (k : Result α) : Result α :=
  match r with
  | .vbr => k
  | .ssp => k
  | .isp => k
  | .msp => k
  | .other n => if Config.hasOtherCtrl n then k else .refused (.noSuchControlRegister n)

/-- A completed transaction that changes the state and hands back nothing. -/
def completed (s : State) : Result (State × Reply) := .next (s, .done)

/-- A completed transaction that hands back a number of `w` bits and leaves the state alone. -/
def answered {w : Nat} (v : BitVec w) (s : State) : Result (State × Reply) := .next (s, .value w v)

/-- A read whose value is handed back. -/
def replied {w : Nat} (o : Result (State × BitVec w)) : Result (State × Reply) :=
  andThen o fun p => .next (p.1, .value w p.2)

/-- One transaction of the block (R190). A fault of `mmu_initialize` is its status `failure` (20_memory.md R71). -/
def transact (r : Request) (s : State) : Result (State × Reply) :=
  match r with
  | .mmuInitialize => andThen (mmuInitialize s) completed
  | .mmuDestroy => completed (mmuDestroy s)
  | .readByte a => replied (readByte a s)
  | .readWord a => replied (readWord a s)
  | .readLong a => replied (readLong a s)
  | .writeByte a v => andThen (writeByte a v s) completed
  | .writeWord a v => andThen (writeWord a v s) completed
  | .writeLong a v => andThen (writeLong a v s) completed
  | .lookup w => .next (s, .entry (Sys2Proof.lookup w))
  | .getReg g => answered (s.getReg g) s
  | .setReg g v => completed (s.setReg g v)
  | .getRegWord g k => answered (wordView k (s.getReg g)) s
  | .setRegWord g k v => completed (s.setReg g (writeWordView k v (s.getReg g)))
  | .getRegByte g k => answered (byteView k (s.getReg g)) s
  | .setRegByte g k v => completed (s.setReg g (writeByteView k v (s.getReg g)))
  | .getPc => answered s.pc s
  | .setPc v => completed (s.setPc v)
  | .getSr => answered s.sr s
  | .setSr v => completed (s.setSr v)
  | .getFlag f => answered (BitVec.ofBool (readFlag f s.sr)) s
  | .setFlag f b => completed (s.setSr (writeFlag f b s.sr))
  | .getMask => answered (readMask s.sr) s
  | .setMask v => completed (s.setSr (writeMask v s.sr))
  | .getTrace => answered (readTrace s.sr) s
  | .setTrace v => completed (s.setSr (writeTrace v s.sr))
  | .getCtrl n => onCtrl n (answered (ctrlGet s.ctrl n) s)
  | .setCtrl n v => onCtrl n (completed (s.setCtrl (ctrlSet s.ctrl n v)))
  | .step => andThen (step s) completed
  | .reset => completed (resetBlock s)

end Sys2Proof.Machine
end

