-- ==== Sys2Proof/Safety.lean ====
section
/-! DEFINITION. What holds of every state the block can reach, and what counts as a safe run, in the terms the claims
use. -/

namespace Sys2Proof.Machine

/-- The presence invariant (20_memory.md R67): a page's table is present, and the table and the page of address 0 are
always there while the MMU is `READY`. -/
abbrev Store.presence (st : Store) : Prop :=
  (∀ p ∈ st.pages, p.1 ∈ st.tables) ∧ 0 ∈ st.tables ∧ (0, 0) ∈ st.pages

/-- `TABLES` and `PAGES` are sets, listed in rising order without repeats. -/
abbrev Store.listed (st : Store) : Prop :=
  st.tables.Pairwise (fun x y => x.toNat < y.toNat) ∧ st.pages.Pairwise (fun x y => pageKey x < pageKey y)

/-- A listed byte has a 32-bit address (R60) and lies in a present page (R66). -/
abbrev Store.placed (st : Store) : Prop := ∀ c ∈ st.mem, c.1 < 2 ^ 32 ∧ pageOf (BitVec.ofNat 32 c.1) ∈ st.pages

/-- The store is well formed: R67, sets in rising order, memory in its canonical form. -/
abbrev Store.wf (st : Store) : Prop := st.presence ∧ st.listed ∧ Memory.wf st.mem ∧ st.placed

/-- The MMU is well formed: nothing is asked of it while `UNINIT`. -/
def Mmu.wf : Mmu → Prop
  | .uninit => True
  | .ready st => st.wf

/-- The invariant of the block: a well-formed MMU, and the further control registers in their canonical form. -/
def State.Inv (s : State) : Prop := s.mmu.wf ∧ cellsWf s.ctrl.others

/-- The state a fault leaves (60_exceptions.md R219). -/
def Fault.final : Fault → State
  | .noInstruction _ s => s
  | .allocFailure _ s => s

/-- The named premise of 20_memory.md R73: no storage request is ever refused from here on. -/
def State.allocNeverFails (s : State) : Prop := ∀ k, s.drawAt k = true

/-- `n` steps of a run go by without a fault and without a refusal (40_fetch_dispatch.md R149). -/
def SafeFor (n : Nat) (s : State) : Prop := ∃ t : State, Sys2Proof.core.run n s = .next t

/-! ## Packed BCD (41_abcd.md R160, R164, R172) -/

/-- Both digits of a byte are at most 9 (R164). -/
def validBcd (b : Byte) : Bool := decide ((b.extractLsb' 4 4).toNat ≤ 9) && decide ((b.extractLsb' 0 4).toNat ≤ 9)

/-- `n(b) = 10 * b[7:4] + b[3:0]` (R164). -/
def bcdValue (b : Byte) : Nat := 10 * (b.extractLsb' 4 4).toNat + (b.extractLsb' 0 4).toNat

/-- The number a list of packed-BCD bytes stands for, least significant byte first. -/
def bcdNumber : List Byte → Nat
  | [] => 0
  | b :: rest => bcdValue b + 100 * bcdNumber rest

/-- A chain of ABCDs over pairs (destination, source), least significant first (R172): the result bytes and the status
word, X passed from each addition to the next, whatever `abcd_v` is. -/
def abcdChain (abcd_v : Byte → Byte → Bool) : List (Byte × Byte) → Word → List Byte × Word
  | [], sr => ([], sr)
  | (dst, src) :: rest, sr =>
    let core := abcdCore dst src (readFlag .x sr)
    let tail := abcdChain abcd_v rest (ccAbcd abcd_v core.1 core.2.1 core.2.2 sr)
    (core.2.2 :: tail.1, tail.2)

/-! ## Comparing states -/

/-- The registers of two states are the same: all that 10_state.md R20 (a) to (f) names. -/
def State.sameRegisters (s t : State) : Prop :=
  t.d = s.d ∧ t.a = s.a ∧ t.pc = s.pc ∧ t.sr = s.sr ∧ t.ctrl = s.ctrl ∧ t.ir = s.ir

/-- All but PC, SR and the environment's draws is the same in two states. -/
def State.sameButPcAndSr (s t : State) : Prop :=
  t.d = s.d ∧ t.a = s.a ∧ t.ctrl = s.ctrl ∧ t.ir = s.ir ∧ t.mmu = s.mmu ∧ t.abcdVDiffers = s.abcdVDiffers

/-- Two states no program can tell apart (20_memory.md R95): the same registers, the same bytes and the same parameter
`abcd_v`. -/
def State.looksLike (s t : State) : Prop :=
  s.sameRegisters t ∧ (∀ k, t.byteAt k = s.byteAt k) ∧ t.abcdVDiffers = s.abcdVDiffers

/-- Replace everything the spec calls inert (10_state.md R30, R33, R34): `SR[15:5]` and the control registers. -/
def State.withInert (b : BitVec 11) (c : ControlRegs) (s : State) : State :=
  { s with sr := b ++ s.sr.extractLsb' 0 5, ctrl := c }

/-- Apply a function to the state a fault leaves. -/
def Fault.mapFinal (f : State → State) : Fault → Fault
  | .noInstruction w s => .noInstruction w (f s)
  | .allocFailure a s => .allocFailure a (f s)

/-- Apply a function to the state an outcome leaves. -/
def mapOutcome (f : State → State) : Result State → Result State
  | .next s => .next (f s)
  | .fault r => .fault (r.mapFinal f)
  | .refused r => .refused r

/-- The control registers 10_state.md R35 names. -/
def CtrlName.isNamed : CtrlName → Bool
  | .vbr => true
  | .ssp => true
  | .isp => true
  | .msp => true
  | .other _ => false

/-- The register accessors of 42_host_interface.md R192, but for a control register named by a number. -/
def Request.isPlainAccessor : Request → Bool
  | .mmuInitialize => false
  | .mmuDestroy => false
  | .readByte _ => false
  | .readWord _ => false
  | .readLong _ => false
  | .writeByte _ _ => false
  | .writeWord _ _ => false
  | .writeLong _ _ => false
  | .lookup _ => false
  | .getReg _ => true
  | .setReg _ _ => true
  | .getRegWord _ _ => true
  | .setRegWord _ _ _ => true
  | .getRegByte _ _ => true
  | .setRegByte _ _ _ => true
  | .getPc => true
  | .setPc _ => true
  | .getSr => true
  | .setSr _ => true
  | .getFlag _ => true
  | .setFlag _ _ => true
  | .getMask => true
  | .setMask _ => true
  | .getTrace => true
  | .setTrace _ => true
  | .getCtrl n => n.isNamed
  | .setCtrl n _ => n.isNamed
  | .step => false
  | .reset => false

end Sys2Proof.Machine
end

