-- ==== Sys2Proof/Certificates/Slice0/Obligations.lean ====
section
/-! DEFINITION. The statements for the provers, one `def Obligations.<Name> : Prop` each, from the numbered rules of the
spec. OBLIGATIONS.json says of each what it formalises. -/

section
open Sys2Proof Sys2Proof.Machine

/-! ## Encoding and lookup (30_encoding.md, 40_fetch_dispatch.md R142) -/

/-- Decoding the bytes of any instruction, whatever follows them, gives that instruction back (R113, R116). -/
def Obligations.EncodedInstructionDecodesBack : Prop :=
  ∀ (i : Instr) (rest : List Byte), decode (encode i ++ rest) = .ok (i, rest)

/-- An opcode that decodes is the encoding of what it decodes to: no two opcodes share an instruction (R113). -/
def Obligations.DecodedOpcodeEncodesBack : Prop :=
  ∀ (w : Word) (i : Instr), decodeWord w = some i → encodeWord i = w

/-- The present slots are R119's 128 values, each with R119's handler and operands; every other slot is absent (R120,
the spec's decision D16). -/
def Obligations.PresentSlotsAreTheAbcdSlots : Prop :=
  ∀ w : Word,
    (∀ ry rx : RegNum, decodeWord w = some (.abcdReg ry rx) ↔ w.toNat = 0xC100 + 0x200 * rx.val + ry.val) ∧
    (∀ ry rx : RegNum, decodeWord w = some (.abcdMem ry rx) ↔ w.toNat = 0xC100 + 0x200 * rx.val + 8 + ry.val) ∧
    ((lookup w).isSome = true ↔ (decodeWord w).isSome = true)

/-- Opcodes written out in the spec (R114, R119, R122) decode as the spec says. -/
def Obligations.SpecOpcodesDecode : Prop :=
  decodeWord 0b1100101100000101#16 = some (.abcdReg 5 5) ∧ decodeWord 0b1100001100000000#16 = some (.abcdReg 0 1) ∧
  decodeWord 0b1100001100001000#16 = some (.abcdMem 0 1) ∧ decodeWord 0b1100111100001110#16 = some (.abcdMem 6 7) ∧
  decodeWord 0xC000#16 = none ∧ decodeWord 0xC110#16 = none ∧ decodeWord 0xD100#16 = none ∧
  decodeWord 0xFFFF#16 = none ∧ decodeWord 0x0000#16 = none

/-- The lookup is the two masks of R142, answers the host without touching the state, and gives R142's examples. That
every other opcode is absent is the spec's decision D16 (log 18); the text "ABCD D5,D5" is R124's decision D14 (log 19). -/
def Obligations.LookupFollowsTheMasks : Prop :=
  (∀ (w : Word) (s : State), transact (.lookup w) s = .next (s, .entry (lookup w))) ∧
  (∀ w : Word, w &&& 0xF1F8#16 = 0xC100#16 → (lookup w).map Entry.handler = some .abcdReg) ∧
  (∀ w : Word, w &&& 0xF1F8#16 = 0xC108#16 → (lookup w).map Entry.handler = some .abcdMem) ∧
  (∀ w : Word, w &&& 0xF1F8#16 ≠ 0xC100#16 → w &&& 0xF1F8#16 ≠ 0xC108#16 → lookup w = none) ∧
  lookup 0xCB05#16 = some { mnemonic := "ABCD D5,D5", handler := .abcdReg } ∧ lookup 0xFFFF#16 = none

/-! ## Registers, status word and reset (10_state.md, 42_host_interface.md R192, 70_reset_and_hazards.md) -/

/-- R38: after reset every register-file cell is zero, the MMU is `UNINIT`, and a byte of a fresh store is zero. -/
def Obligations.ResetLeavesEveryCellZero : Prop :=
  (∀ n : RegNum, State.reset.dReg n = 0 ∧ State.reset.aReg n = 0) ∧ State.reset.pc = 0 ∧ State.reset.sr = 0 ∧
  (∀ c : CtrlName, ctrlGet State.reset.ctrl c = 0) ∧ State.reset.ir = 0 ∧
  (∀ f : Flag, State.reset.flag f = false) ∧ readMask State.reset.sr = 0 ∧ readTrace State.reset.sr = 0 ∧
  State.reset.mmu = .uninit ∧ ∀ k, Store.fresh.byteAt k = 0

/-- The `reset` transaction takes every state to the reset values; it cannot fail (R240, the spec's decision D17). The
environment's draws and the parameter `abcd_v` stay: the model's choice (log 16). -/
def Obligations.ResetTransactionClears : Prop :=
  ∀ s : State, ∃ t, transact .reset s = .next (t, .done) ∧ State.reset.sameRegisters t ∧ t.mmu = .uninit ∧
    (∀ k, t.drawAt k = s.drawAt k) ∧ t.abcdVDiffers = s.abcdVDiffers

/-- R24: writing a narrow view replaces exactly the bits of that view. -/
def Obligations.ViewWriteReplacesOnlyItsBits : Prop :=
  ∀ v : Long,
    (∀ (k : Fin 4) (x : Byte), byteView k (writeByteView k x v) = x ∧
      ∀ j < 32, (writeByteView k x v).getLsbD j =
        if 24 - 8 * k.val ≤ j ∧ j ≤ 31 - 8 * k.val then x.getLsbD (j - (24 - 8 * k.val)) else v.getLsbD j) ∧
    (∀ x : Byte, writeByteView 3 x v = v.extractLsb' 8 24 ++ x) ∧
    (∀ x : Word, writeWordView 1 x v = v.extractLsb' 16 16 ++ x ∧ wordView 1 (writeWordView 1 x v) = x) ∧
    (∀ x : Word, writeWordView 0 x v = x ++ v.extractLsb' 0 16 ∧ wordView 0 (writeWordView 0 x v) = x)

/-- A flag write sets that bit and preserves the others, and so does the write of a field of several bits (R31). The
places and widths of the mask and trace fields are R30's decision D8 (log 3). -/
def Obligations.FlagWritePreservesOtherBits : Prop :=
  ∀ sr : Word,
    (∀ (f : Flag) (b : Bool), readFlag f (writeFlag f b sr) = b ∧
      ∀ j < 16, j ≠ flagBit f → (writeFlag f b sr).getLsbD j = sr.getLsbD j) ∧
    (∀ v : BitVec 3, readMask (writeMask v sr) = v ∧
      ∀ j < 16, ¬(8 ≤ j ∧ j ≤ 10) → (writeMask v sr).getLsbD j = sr.getLsbD j) ∧
    (∀ v : BitVec 2, readTrace (writeTrace v sr) = v ∧
      ∀ j < 14, (writeTrace v sr).getLsbD j = sr.getLsbD j)

/-- No register accessor can fail, and none reaches IR, the MMU or the draws (R192, the spec's decision D20). -/
def Obligations.AccessorsNeverFail : Prop :=
  ∀ (r : Request) (s : State), r.isPlainAccessor = true →
    ∃ t v, transact r s = .next (t, v) ∧ t.ir = s.ir ∧ t.mmu = s.mmu ∧ t.draws = s.draws ∧ t.drawCount = s.drawCount

/-- What the host writes into a general register through a view it reads back, the register's other bits are kept, and
no other register changes (R192, with the views of R23 and R24). -/
def Obligations.HostWritesGeneralRegister : Prop :=
  ∀ (g : GeneralReg) (s : State),
    (∀ v, ∃ t, transact (.setReg g v) s = .next (t, .done) ∧ transact (.getReg g) t = .next (t, .value 32 v) ∧
      t.getReg g = v ∧ (∀ h, h ≠ g → t.getReg h = s.getReg h) ∧ t.pc = s.pc ∧ t.sr = s.sr ∧ t.ctrl = s.ctrl) ∧
    (∀ k v, ∃ t, transact (.setRegWord g k v) s = .next (t, .done) ∧
      transact (.getRegWord g k) t = .next (t, .value 16 v) ∧ t.getReg g = writeWordView k v (s.getReg g) ∧
      (∀ h, h ≠ g → t.getReg h = s.getReg h) ∧ t.pc = s.pc ∧ t.sr = s.sr ∧ t.ctrl = s.ctrl) ∧
    (∀ k v, ∃ t, transact (.setRegByte g k v) s = .next (t, .done) ∧
      transact (.getRegByte g k) t = .next (t, .value 8 v) ∧ t.getReg g = writeByteView k v (s.getReg g) ∧
      (∀ h, h ≠ g → t.getReg h = s.getReg h) ∧ t.pc = s.pc ∧ t.sr = s.sr ∧ t.ctrl = s.ctrl)

/-- What the host writes into PC, into SR whole, and into a flag, the interrupt mask or the trace field of SR, it reads
back; SR's other bits are kept, and no other register and no memory changes (R192, the spec's decision D20; R31). The
places of the fields are R29's and R30's decision D8 (log 3). -/
def Obligations.HostWritesPcAndStatus : Prop :=
  ∀ s : State,
    (∀ v, ∃ t, transact (.setPc v) s = .next (t, .done) ∧ transact .getPc t = .next (t, .value 32 v) ∧
      t.pc = v ∧ t.sr = s.sr ∧ s.sameButPcAndSr t) ∧
    (∀ v, ∃ t, transact (.setSr v) s = .next (t, .done) ∧ transact .getSr t = .next (t, .value 16 v) ∧
      t.sr = v ∧ t.pc = s.pc ∧ s.sameButPcAndSr t) ∧
    (∀ f b, ∃ t, transact (.setFlag f b) s = .next (t, .done) ∧
      transact (.getFlag f) t = .next (t, .value 1 (BitVec.ofBool b)) ∧
      (∀ j < 16, t.sr.getLsbD j = if j = flagBit f then b else s.sr.getLsbD j) ∧ t.pc = s.pc ∧ s.sameButPcAndSr t) ∧
    (∀ v, ∃ t, transact (.setMask v) s = .next (t, .done) ∧ transact .getMask t = .next (t, .value 3 v) ∧
      (∀ j < 16, t.sr.getLsbD j = if 8 ≤ j ∧ j ≤ 10 then v.getLsbD (j - 8) else s.sr.getLsbD j) ∧ t.pc = s.pc ∧
      s.sameButPcAndSr t) ∧
    (∀ v, ∃ t, transact (.setTrace v) s = .next (t, .done) ∧ transact .getTrace t = .next (t, .value 2 v) ∧
      (∀ j < 16, t.sr.getLsbD j = if 14 ≤ j then v.getLsbD (j - 14) else s.sr.getLsbD j) ∧ t.pc = s.pc ∧
      s.sameButPcAndSr t)

/-- Each control register is a cell of its own: writing one, where it exists, changes that one only, and no other
register (R34, R35, the spec's decision D9). -/
def Obligations.ControlRegistersAreIndependentCells : Prop :=
  ∀ (c : CtrlName) (v : Long) (s : State),
    (∀ n, c = .other n → Config.hasOtherCtrl n = true) →
    ∃ t, transact (.setCtrl c v) s = .next (t, .done) ∧ transact (.getCtrl c) t = .next (t, .value 32 v) ∧
      (∀ e, e ≠ c → ctrlGet t.ctrl e = ctrlGet s.ctrl e) ∧
      t.d = s.d ∧ t.a = s.a ∧ t.pc = s.pc ∧ t.sr = s.sr ∧ t.ir = s.ir ∧ t.mmu = s.mmu

/-! ## The MMU's lifecycle (20_memory.md R70 to R72, R77) -/

/-- Three granted draws make a `READY` MMU with table 0 and page (0, 0), every byte zero (R70); on a `READY` MMU the
request is refused: R77's decision D18 (log 11). -/
def Obligations.InitializeMakesTheFirstPage : Prop :=
  ∀ s : State,
    (s.mmu = .uninit → s.granted 3 → ∃ t, mmuInitialize s = .next t ∧
      (∃ st, t.mmu = .ready st ∧ (∀ d, d ∈ st.tables ↔ d = 0) ∧ (∀ p, p ∈ st.pages ↔ p = (0, 0))) ∧
      (∀ k, t.byteAt k = 0) ∧ s.sameRegisters t ∧ ∀ k, t.drawAt k = s.drawAt (3 + k)) ∧
    (∀ st, s.mmu = .ready st → mmuInitialize s = .refused .mmuAlreadyInitialized)

/-- If any of the three allocations fails, the MMU stays `UNINIT`, the result is `AllocFailure`, and a later
`mmu_initialize` is a fresh attempt (R71). That the draws up to the refused one are taken is log 15, and that the fault
carries no address is the model's choice, log 14. -/
def Obligations.FailedInitializeLeavesUninit : Prop :=
  ∀ (s : State) (k : Nat), s.mmu = .uninit → k < 3 → s.granted k → s.drawAt k = false →
    ∃ t, mmuInitialize s = .fault (.allocFailure none t) ∧ t.mmu = .uninit ∧ s.sameRegisters t ∧
      (∀ j, t.drawAt j = s.drawAt (k + 1 + j)) ∧ (t.granted 3 → ∃ u, mmuInitialize t = .next u ∧ u.mmu = .ready .fresh)

/-- `mmu_destroy` cannot fail, leaves the registers, changes nothing while `UNINIT` (R72), and no byte survives it
(the spec's decision D19). -/
def Obligations.DestroyReleasesEverything : Prop :=
  ∀ s : State, ∃ t, transact .mmuDestroy s = .next (t, .done) ∧ t.mmu = .uninit ∧ s.sameRegisters t ∧
    (s.mmu = .uninit → t = s) ∧ ∀ u, mmuInitialize t = .next u → ∀ k, u.byteAt k = 0

/-- While the MMU is `UNINIT`, every access, `translate`, the memory form and the step are refused (R77, the spec's
decision D18). -/
def Obligations.NothingReachesMemoryBeforeInitialize : Prop :=
  ∀ s : State, s.mmu = .uninit → ∀ a : Long,
    translate a s = .refused .mmuNotInitialized ∧
    readByte a s = .refused .mmuNotInitialized ∧ readWord a s = .refused .mmuNotInitialized ∧
    readLong a s = .refused .mmuNotInitialized ∧ (∀ v, writeByte a v s = .refused .mmuNotInitialized) ∧
    (∀ v, writeWord a v s = .refused .mmuNotInitialized) ∧ (∀ v, writeLong a v s = .refused .mmuNotInitialized) ∧
    (∀ ry rx, exec (.abcdMem ry rx) s = .refused .mmuNotInitialized) ∧ step s = .refused .mmuNotInitialized

/-! ## Translation and the six accesses (20_memory.md R74 to R87) -/

/-- R75: translating twice gives the same location and the second translation changes nothing; addresses of one page
have locations that differ by the offset; addresses of different pages have locations in different pages; two
addresses never share a location. -/
def Obligations.TranslateIsStableAndDistinct : Prop :=
  (∀ (a : Long) (s t : State) (l : Location), translate a s = .next (t, l) →
    l = splitAddress a ∧ translate a t = .next (t, l)) ∧
  (∀ a b : Long, pageOf a = pageOf b →
    (splitAddress a).dir = (splitAddress b).dir ∧ (splitAddress a).tbl = (splitAddress b).tbl ∧
    (a.toNat : Int) - b.toNat = ((splitAddress a).offset.toNat : Int) - (splitAddress b).offset.toNat) ∧
  (∀ a b : Long, pageOf a ≠ pageOf b →
    ((splitAddress a).dir, (splitAddress a).tbl) ≠ ((splitAddress b).dir, (splitAddress b).tbl)) ∧
  (∀ a b : Long, splitAddress a = splitAddress b → a = b)

/-- Each of the six accesses completes exactly when the draws it takes are granted; it takes one for each absent table
and one for each absent page, in order, and no other (R73, R80, R95). That each byte is translated on its own, on which
the count rests, is the spec's decision D7 (log 10). -/
def Obligations.AccessTakesExactlyItsDraws : Prop :=
  ∀ (s : State) (st : Store) (a : Long), s.mmu = .ready st →
    ((∃ p, readByte a s = .next p) ↔ s.granted (st.drawsForAll (span a 1))) ∧
    ((∃ p, readWord a s = .next p) ↔ s.granted (st.drawsForAll (span a 2))) ∧
    ((∃ p, readLong a s = .next p) ↔ s.granted (st.drawsForAll (span a 4))) ∧
    (∀ v, (∃ t, writeByte a v s = .next t) ↔ s.granted (st.drawsForAll (span a 1))) ∧
    (∀ v, (∃ t, writeWord a v s = .next t) ↔ s.granted (st.drawsForAll (span a 2))) ∧
    (∀ v, (∃ t, writeLong a v s = .next t) ↔ s.granted (st.drawsForAll (span a 4))) ∧
    (∀ t v, readByte a s = .next (t, v) → ∀ k, t.drawAt k = s.drawAt (st.drawsForAll (span a 1) + k)) ∧
    (∀ t v, readWord a s = .next (t, v) → ∀ k, t.drawAt k = s.drawAt (st.drawsForAll (span a 2) + k)) ∧
    (∀ t v, readLong a s = .next (t, v) → ∀ k, t.drawAt k = s.drawAt (st.drawsForAll (span a 4) + k)) ∧
    (∀ t v, writeByte a v s = .next t → ∀ k, t.drawAt k = s.drawAt (st.drawsForAll (span a 1) + k)) ∧
    (∀ t v, writeWord a v s = .next t → ∀ k, t.drawAt k = s.drawAt (st.drawsForAll (span a 2) + k)) ∧
    (∀ t v, writeLong a v s = .next t → ∀ k, t.drawAt k = s.drawAt (st.drawsForAll (span a 4) + k))

/-- R81: what the three reads return, as numbers, big-endian; the width is that of the access. -/
def Obligations.ReadsAreBigEndian : Prop :=
  ∀ (s t : State) (a : Long),
    (∀ v, readByte a s = .next (t, v) → v = s.byteAt a) ∧
    (∀ v, readWord a s = .next (t, v) → v.toNat = (s.byteAt a).toNat * 256 + (s.byteAt (a + 1)).toNat) ∧
    (∀ v, readLong a s = .next (t, v) → v.toNat = (s.byteAt a).toNat * 2 ^ 24 + (s.byteAt (a + 1)).toNat * 2 ^ 16 +
      (s.byteAt (a + 2)).toNat * 2 ^ 8 + (s.byteAt (a + 3)).toNat)

/-- A read changes no byte and no register, and the same read right after it returns the same and leaves the state as
it is (R87). -/
def Obligations.ReadsAreIdempotent : Prop :=
  ∀ (s t : State) (a : Long),
    (∀ v, readByte a s = .next (t, v) → s.looksLike t ∧ readByte a t = .next (t, v)) ∧
    (∀ v, readWord a s = .next (t, v) → s.looksLike t ∧ readWord a t = .next (t, v)) ∧
    (∀ v, readLong a s = .next (t, v) → s.looksLike t ∧ readLong a t = .next (t, v))

/-- R82: which byte each write leaves at each address: the bytes it names, most significant first, and no other. -/
def Obligations.WritesStoreTheirBytes : Prop :=
  ∀ (s t : State) (a : Long),
    (∀ v, writeByte a v s = .next t → s.sameRegisters t ∧ ∀ k, t.byteAt k = if k = a then v else s.byteAt k) ∧
    (∀ v, writeWord a v s = .next t → s.sameRegisters t ∧ t.byteAt a = v.extractLsb' 8 8 ∧
      t.byteAt (a + 1) = v.extractLsb' 0 8 ∧ ∀ k, k ≠ a → k ≠ a + 1 → t.byteAt k = s.byteAt k) ∧
    (∀ v, writeLong a v s = .next t → s.sameRegisters t ∧ t.byteAt a = v.extractLsb' 24 8 ∧
      t.byteAt (a + 1) = v.extractLsb' 16 8 ∧ t.byteAt (a + 2) = v.extractLsb' 8 8 ∧
      t.byteAt (a + 3) = v.extractLsb' 0 8 ∧
      ∀ k, k ≠ a → k ≠ a + 1 → k ≠ a + 2 → k ≠ a + 3 → t.byteAt k = s.byteAt k)

/-- R83: what a write stored, a read of the same width at the same address returns, at every address. -/
def Obligations.WriteThenReadReturnsTheValue : Prop :=
  ∀ (s t : State) (a : Long),
    (∀ v, writeByte a v s = .next t → readByte a t = .next (t, v)) ∧
    (∀ v, writeWord a v s = .next t → readWord a t = .next (t, v)) ∧
    (∀ v, writeLong a v s = .next t → readLong a t = .next (t, v))

/-- After a long write, narrower reads at and inside its address see its bytes (R86). -/
def Obligations.NarrowReadsSeeAWideWrite : Prop :=
  ∀ (s t : State) (a : Long) (v : Long), writeLong a v s = .next t →
    readByte a t = .next (t, v.extractLsb' 24 8) ∧ readWord a t = .next (t, v.extractLsb' 16 16) ∧
    readWord (a + 1) t = .next (t, v.extractLsb' 8 16) ∧ readWord (a + 2) t = .next (t, v.extractLsb' 0 16)

/-- Each of the six accesses, where it faults, does so with `AllocFailure` at one of its addresses; no byte is written,
no register changes, nothing present is lost and the MMU stays well formed (R80, R219, the spec's decisions D22, D27;
log 6, and log 14 for the address). -/
def Obligations.FailedAccessWritesNothing : Prop :=
  ∀ (s : State) (a : Long) (n : Nat) (r : Fault),
    ((n = 1 ∧ (readByte a s = .fault r ∨ ∃ v, writeByte a v s = .fault r)) ∨
      (n = 2 ∧ (readWord a s = .fault r ∨ ∃ v, writeWord a v s = .fault r)) ∨
      (n = 4 ∧ (readLong a s = .fault r ∨ ∃ v, writeLong a v s = .fault r))) →
    ∃ b ∈ span a n, ∃ t, r = .allocFailure (some b) t ∧ s.looksLike t ∧ (s.mmu.wf → t.mmu.wf) ∧
      ∀ st, s.mmu = .ready st → ∃ st', t.mmu = .ready st' ∧ (∀ d ∈ st.tables, d ∈ st'.tables) ∧
        ∀ p ∈ st.pages, p ∈ st'.pages

/-- No transaction but `mmu_destroy` and `reset` removes a table or a page (R67), whether it completes or faults: what
was allocated before a fault stays (R219, the spec's decisions D22, D27; log 6). -/
def Obligations.OnlyDestroyAndResetRemovePages : Prop :=
  ∀ (r : Request) (s t : State) (st : Store), s.mmu = .ready st → r ≠ .mmuDestroy → r ≠ .reset →
    ((∃ v, transact r s = .next (t, v)) ∨ ∃ f, transact r s = .fault f ∧ t = f.final) →
    ∃ st', t.mmu = .ready st' ∧ (∀ d ∈ st.tables, d ∈ st'.tables) ∧ ∀ p ∈ st.pages, p ∈ st'.pages

/-- A store is seen by the very next fetch from its address (R92). -/
def Obligations.FetchSeesTheLatestStore : Prop :=
  ∀ (s t : State) (a : Long) (w : Word), writeWord a w s = .next t →
    ifetch (t.setPc a) = .next ((t.setPc a).setIr w, w)

/-! ## The decimal adder (41_abcd.md R161 to R164, R172) -/

/-- The decimal law: for valid operands the result is the packed BCD of the sum modulo 100, and the carry says whether
the sum reached 100 (R164). -/
def Obligations.DecimalSumOfValidOperands : Prop :=
  ∀ (dst src : Byte) (x : Bool), validBcd dst = true → validBcd src = true →
    validBcd (abcdResult dst src x) = true ∧
    bcdValue (abcdResult dst src x) = (bcdValue dst + bcdValue src + x.toNat) % 100 ∧
    (abcdCarryOut dst src x = true ↔ 100 ≤ bcdValue dst + bcdValue src + x.toNat)

/-- What the intermediate values mean, for every operand (R163), and the four corrections (R161). -/
def Obligations.CarriesAndCorrectionMean : Prop :=
  ∀ (dst src : Byte) (x : Bool),
    ((abcdCore dst src x).1.toNat = (dst.toNat + src.toNat + x.toNat) % 256) ∧
    ((abcdCore dst src x).2.1.getLsbD 7 = true ↔ 256 ≤ dst.toNat + src.toNat + x.toNat) ∧
    ((abcdCore dst src x).2.1.getLsbD 3 = true ↔ 16 ≤ dst.toNat % 16 + src.toNat % 16 + x.toNat) ∧
    ((abcdDecimalCarry (abcdCore dst src x).1).getLsbD 7 = true ↔ 256 ≤ (abcdCore dst src x).1.toNat + 0x66) ∧
    ((abcdDecimalCarry (abcdCore dst src x).1).getLsbD 3 = true ↔ 16 ≤ (abcdCore dst src x).1.toNat % 16 + 6) ∧
    (abcdCorrection (abcdCore dst src x).2.1 (abcdDecimalCarry (abcdCore dst src x).1) ∈
      [0x00#8, 0x06#8, 0x60#8, 0x66#8])

/-- A chain of ABCDs from the least significant byte up adds the two decimal numbers: X carries between bytes, the last
X and C are the carry out, and Z ends at 1 only if it was 1 and every result byte is zero (R172), whatever `abcd_v` is. -/
def Obligations.ChainAddsDecimalNumbers : Prop :=
  ∀ (abcd_v : Byte → Byte → Bool) (ops : List (Byte × Byte)) (sr : Word), (∀ p ∈ ops, validBcd p.1 = true ∧ validBcd p.2 = true) →
    (abcdChain abcd_v ops sr).1.length = ops.length ∧
    (∀ b ∈ (abcdChain abcd_v ops sr).1, validBcd b = true) ∧
    bcdNumber (abcdChain abcd_v ops sr).1 + 100 ^ ops.length * (readFlag .x (abcdChain abcd_v ops sr).2).toNat =
      bcdNumber (ops.map Prod.fst) + bcdNumber (ops.map Prod.snd) + (readFlag .x sr).toNat ∧
    (readFlag .z (abcdChain abcd_v ops sr).2 = true ↔ readFlag .z sr = true ∧ ∀ b ∈ (abcdChain abcd_v ops sr).1, b = 0) ∧
    (ops ≠ [] → readFlag .c (abcdChain abcd_v ops sr).2 = readFlag .x (abcdChain abcd_v ops sr).2)

/-! ## The flags after ABCD (41_abcd.md R165, R167, R168) -/

/-- In both forms, with the raw sum, the binary carries and the result of the operands read before: C and X are bit 7 of
`bc | (r & ~rr)` (R165); Z is cleared unless the result is zero, and then kept (R167); N is the top bit of the result
(R168). -/
def Obligations.FlagsFollowTheRules : Prop :=
  ∀ (ry rx : RegNum) (s t : State) (r bc rr : Byte),
    ((exec (.abcdReg ry rx) s = .next t ∧ abcdCore (s.dByte rx) (s.dByte ry) (s.flag .x) = (r, bc, rr)) ∨
      (exec (.abcdMem ry rx) s = .next t ∧
        abcdCore (s.byteAt (destAddress ry rx s)) (s.byteAt (sourceAddress ry s)) (s.flag .x) = (r, bc, rr))) →
    (t.flag .c = ((bc ||| (r &&& ~~~rr)) >>> 7).getLsbD 0) ∧ (t.flag .x = ((bc ||| (r &&& ~~~rr)) >>> 7).getLsbD 0) ∧
    (rr ≠ 0 → t.flag .z = false) ∧ (rr = 0 → t.flag .z = s.flag .z) ∧ (t.flag .z = (s.flag .z && decide (rr = 0))) ∧
    t.flag .n = rr.getLsbD 7

/-! ## ABCD Dy,Dx (41_abcd.md R165 to R170, R173) -/

/-- The register form always completes; the low byte of D[rx] becomes the result, C and X the decimal carry-out (R165),
Z is cleared unless the result is zero and then kept (R167), N is the top bit of the result (R168). -/
def Obligations.RegisterFormResult : Prop :=
  ∀ (ry rx : RegNum) (s : State) (r bc rr : Byte),
    abcdCore ((s.dReg rx).extractLsb' 0 8) ((s.dReg ry).extractLsb' 0 8) (s.flag .x) = (r, bc, rr) →
    ∃ t, exec (.abcdReg ry rx) s = .next t ∧
      t.dReg rx = (s.dReg rx).extractLsb' 8 24 ++ rr ∧
      (t.flag .c = ((bc ||| (r &&& ~~~rr)) >>> 7).getLsbD 0) ∧ (t.flag .x = ((bc ||| (r &&& ~~~rr)) >>> 7).getLsbD 0) ∧
      (rr ≠ 0 → t.flag .z = false) ∧ (rr = 0 → t.flag .z = s.flag .z) ∧
      t.flag .n = rr.getLsbD 7

/-- The frame of the register form: nothing but D[rx] and the five flags (R173). That the flags are bits 4:0 of SR and
bits 15:5 are the rest is R29's and R30's decision D8 (log 3). -/
def Obligations.RegisterFormFrame : Prop :=
  ∀ (ry rx : RegNum) (s t : State), exec (.abcdReg ry rx) s = .next t →
    (∀ n, n ≠ rx → t.dReg n = s.dReg n) ∧ (∀ n, t.aReg n = s.aReg n) ∧
    (∀ j < 16, 5 ≤ j → t.sr.getLsbD j = s.sr.getLsbD j) ∧ t.ctrl = s.ctrl ∧ t.pc = s.pc ∧ t.ir = s.ir ∧
    (∀ k, t.byteAt k = s.byteAt k) ∧ t.mmu = s.mmu ∧ t.draws = s.draws ∧ t.drawCount = s.drawCount ∧
    t.abcdVDiffers = s.abcdVDiffers

/-- The source's worked examples of the register form (R170), with every flag as 95_test_vectors.md section 1.5 fills it
in. SR is compared as a number: that rests on the places of the flags, decision D8 (log 3), and on V being the default of
`abcd_v`, the premise on the parameter (R166, D11, log 2). -/
def Obligations.RegisterFormWorkedExamples : Prop :=
  ∀ (s : State), s.dReg 0 = 0x00000046#32 → s.dReg 1 = 0xABCDEF28#32 → s.dReg 2 = 0x00000091#32 →
    s.dReg 3 = 0x00000010#32 → s.dReg 4 = 0x00000090#32 → s.sr = 0x0004#16 → s.abcdVDiffers = [] →
    (∃ t, exec (.abcdReg 0 1) s = .next t ∧ t.dReg 1 = 0xABCDEF74#32 ∧ t.sr = 0x0000#16) ∧
    (∃ t, exec (.abcdReg 0 1) (s.setSr 0x0014#16) = .next t ∧ t.dReg 1 = 0xABCDEF75#32 ∧ t.sr = 0x0000#16) ∧
    (∃ t, exec (.abcdReg 2 3) s = .next t ∧ t.dReg 3 = 0x00000001#32 ∧ t.sr = 0x0011#16) ∧
    (∃ t, exec (.abcdReg 4 3) (s.setSr 0x0014#16) = .next t ∧ t.dReg 3 = 0x00000001#32 ∧ t.sr = 0x0011#16) ∧
    (∃ t, exec (.abcdReg 4 3) s = .next t ∧ t.dReg 3 = 0x00000000#32 ∧ t.sr = 0x0015#16)

/-! ## ABCD -(Ay),-(Ax) (41_abcd.md R171, R173, 60_exceptions.md R219) -/

/-- The memory form completes when the MMU is `READY` and the draws its two operands take are granted: both registers
are decremented by 1 (the same register twice), the result goes to the destination byte, the flags as in the register
form. The source is read first (R171, the spec's decisions D12, D13). -/
def Obligations.MemoryFormResult : Prop :=
  ∀ (ry rx : RegNum) (s : State) (st : Store) (src dst : Long) (r bc rr : Byte),
    s.mmu = .ready st → src = s.aReg ry - 1 → dst = (if rx = ry then s.aReg ry - 2 else s.aReg rx - 1) →
    s.granted (st.drawsForAll [src, dst]) →
    abcdCore (s.byteAt dst) (s.byteAt src) (s.flag .x) = (r, bc, rr) →
    ∃ t, exec (.abcdMem ry rx) s = .next t ∧
      (rx ≠ ry → t.aReg ry = s.aReg ry - 1 ∧ t.aReg rx = s.aReg rx - 1) ∧ (rx = ry → t.aReg rx = s.aReg rx - 2) ∧
      t.byteAt dst = rr ∧
      (t.flag .c = ((bc ||| (r &&& ~~~rr)) >>> 7).getLsbD 0) ∧ (t.flag .x = ((bc ||| (r &&& ~~~rr)) >>> 7).getLsbD 0) ∧
      (rr ≠ 0 → t.flag .z = false) ∧ (rr = 0 → t.flag .z = s.flag .z) ∧
      t.flag .n = rr.getLsbD 7 ∧
      (∀ k, t.drawAt k = s.drawAt (st.drawsForAll [src, dst] + k)) ∧
      ∃ st', t.mmu = .ready st' ∧ (∀ d, d ∈ st'.tables ↔ d = dirIndex src ∨ d = dirIndex dst ∨ d ∈ st.tables) ∧
        ∀ p, p ∈ st'.pages ↔ p = pageOf src ∨ p = pageOf dst ∨ p ∈ st.pages

/-- The frame of the memory form: nothing but A[ry], A[rx], the byte at the destination address and the five flags
(R173). The destination address is the meaning's own, `destAddress`. The last clause says where that is: A[ry] - 2 for
one register twice is the spec's decision D12 (log 9), the decrement of A7 by 1 and the wrap are D13 (log 20). That the
flags are bits 4:0 of SR and bits 15:5 are the rest is R29's and R30's decision D8 (log 3). -/
def Obligations.MemoryFormFrame : Prop :=
  ∀ (ry rx : RegNum) (s t : State), exec (.abcdMem ry rx) s = .next t →
    (∀ n, t.dReg n = s.dReg n) ∧ (∀ n, n ≠ ry → n ≠ rx → t.aReg n = s.aReg n) ∧
    (∀ j < 16, 5 ≤ j → t.sr.getLsbD j = s.sr.getLsbD j) ∧ t.ctrl = s.ctrl ∧ t.pc = s.pc ∧ t.ir = s.ir ∧
    t.abcdVDiffers = s.abcdVDiffers ∧ (∀ k, k ≠ destAddress ry rx s → t.byteAt k = s.byteAt k) ∧
    destAddress ry rx s = if rx = ry then s.aReg ry - 2 else s.aReg rx - 1

/-- Where a draw is refused the memory form ends in `AllocFailure` at the source or the destination address: the
decrements made before stay, and no flag, no data register and no byte changes (R219, the spec's decision D22, log 6).
That the fault carries the address is the model's choice (log 14); which address it names rests on the source being read
first, the spec's decision D12 (log 9), and on the decrements of D13 (log 20). -/
def Obligations.MemoryFormFault : Prop :=
  ∀ (ry rx : RegNum) (s : State) (st : Store), s.mmu = .ready st →
    ¬ s.granted (st.drawsForAll [sourceAddress ry s, destAddress ry rx s]) →
    ∃ b t, exec (.abcdMem ry rx) s = .fault (.allocFailure (some b) t) ∧
      ((b = sourceAddress ry s ∧ t.a = (preDecrement ry s).a) ∨
        (b = destAddress ry rx s ∧ t.a = (preDecrement rx (preDecrement ry s)).a)) ∧
      t.d = s.d ∧ t.sr = s.sr ∧ t.pc = s.pc ∧ t.ir = s.ir ∧ t.ctrl = s.ctrl ∧ ∀ k, t.byteAt k = s.byteAt k

/-- The source's worked example of the memory form (R171): A0 = 0x10, A1 = 0x20, bytes 0x46 and 0x28. SR is compared as a
number: that rests on the places of the flags, decision D8 (log 3), and on V being the default of `abcd_v`, the premise
on the parameter (R166, D11, log 2). -/
def Obligations.MemoryFormWorkedExample : Prop :=
  ∀ (s : State), s.mmu = .ready { tables := [0], pages := [(0, 0)], mem := [(0x0F, 0x46#8), (0x1F, 0x28#8)] } →
    s.aReg 0 = 0x10#32 → s.aReg 1 = 0x20#32 → s.sr = 0x0004#16 → s.abcdVDiffers = [] →
    ∃ t, exec (.abcdMem 0 1) s = .next t ∧ t.aReg 0 = 0x0F#32 ∧ t.aReg 1 = 0x1F#32 ∧ t.byteAt 0x1F#32 = 0x74#8 ∧
      t.byteAt 0x0F#32 = 0x46#8 ∧ t.sr = 0x0000#16

/-- V after ABCD, in both forms, is the parameter `abcd_v` of the raw sum and the result; where the parameter is its
default, that is bit 7 of `~r & rr` (R166, the spec's decision D11; log 2). -/
def Obligations.OverflowFollowsTheDefault : Prop :=
  ∀ (ry rx : RegNum) (s t : State) (r bc rr : Byte),
    ((exec (.abcdReg ry rx) s = .next t ∧ abcdCore (s.dByte rx) (s.dByte ry) (s.flag .x) = (r, bc, rr)) ∨
      (exec (.abcdMem ry rx) s = .next t ∧
        abcdCore (s.byteAt (destAddress ry rx s)) (s.byteAt (sourceAddress ry s)) (s.flag .x) = (r, bc, rr))) →
    t.flag .v = abcdV s.abcdVDiffers r rr ∧
    (s.abcdVDiffers = [] → (t.flag .v = true ↔ r.getLsbD 7 = false ∧ rr.getLsbD 7 = true))

/-- The parameter `abcd_v` is open (00_scope.md R8, the spec's decision D11): every function of the two bytes can be
given as the list of the pairs at which it differs from the default (log 2). -/
def Obligations.EveryOverflowFunctionCanBeGiven : Prop :=
  ∀ f : Byte → Byte → Bool, ∃ differs : List (Byte × Byte), ∀ r rr : Byte, abcdV differs r rr = f r rr

/-- The parameter `abcd_v` is fixed: no transaction changes it, whether it completes or faults (R8, R166; log 2). -/
def Obligations.ParameterIsFixed : Prop :=
  ∀ (r : Request) (s : State),
    (∀ t v, transact r s = .next (t, v) → t.abcdVDiffers = s.abcdVDiffers) ∧
    ∀ f, transact r s = .fault f → f.final.abcdVDiffers = s.abcdVDiffers

/-! ## The step (40_fetch_dispatch.md) -/

/-- The fetch is a word read at PC, big-endian, latched in IR; it may allocate, and it ends in `AllocFailure` when a draw
it takes is refused (R141). That IR and every other register and byte are then unchanged is R219's decision D22 (log 6),
and the address the fault names is the model's choice (log 14). -/
def Obligations.FetchReadsTheWordAtPc : Prop :=
  ∀ (s : State) (st : Store), s.mmu = .ready st →
    (∀ t w, ifetch s = .next (t, w) ↔ ∃ u, readWord s.pc s = .next (u, w) ∧ t = u.setIr w) ∧
    (s.granted (st.drawsForAll (span s.pc 2)) → ∃ t w, ifetch s = .next (t, w) ∧
      w.toNat = (s.byteAt s.pc).toNat * 256 + (s.byteAt (s.pc + 1)).toNat ∧ t.ir = w ∧
      s.looksLike { t with ir := s.ir } ∧ t.mmu = .ready (st.touchAll (span s.pc 2))) ∧
    (¬ s.granted (st.drawsForAll (span s.pc 2)) → ∃ b t, ifetch s = .fault (.allocFailure (some b) t) ∧
      (b = s.pc ∨ b = s.pc + 1) ∧ s.looksLike t)

/-- A step runs the instruction the bytes at PC decode to: with the fetch's draws granted, it is `exec` of that
instruction on the fetched state, IR holding the opcode, and then PC moved past the two bytes (R140, R145, the spec's
decisions D2, D3). -/
def Obligations.StepRunsTheDecodedInstruction : Prop :=
  ∀ (s : State) (st : Store) (i : Instr), s.mmu = .ready st → s.granted (st.drawsForAll (span s.pc 2)) →
    decode [s.byteAt s.pc, s.byteAt (s.pc + 1)] = .ok (i, []) →
    ∃ u, u = (((s.dropDraws (st.drawsForAll (span s.pc 2))).setMmu (.ready (st.touchAll (span s.pc 2)))).setIr
        (s.byteAt s.pc ++ s.byteAt (s.pc + 1))) ∧
      (∀ t, exec i u = .next t → step s = .next (t.setPc (t.pc + 2))) ∧
      (∀ r, exec i u = .fault r → step s = .fault r) ∧ (∀ r, exec i u = .refused r → step s = .refused r)

/-- An absent opcode ends the step in `NoInstruction`: PC unchanged, IR the opcode, no other register and no byte
changed (R143, the spec's decision D5). That every word outside the mask is absent is the default of the parameter
ITABLE, decision D16 (log 18). -/
def Obligations.AbsentOpcodeFaults : Prop :=
  ∀ (s : State) (st : Store) (w : Word), s.mmu = .ready st → s.granted (st.drawsForAll (span s.pc 2)) →
    w = s.byteAt s.pc ++ s.byteAt (s.pc + 1) → w &&& 0xF1F0#16 ≠ 0xC100#16 →
    ∃ t, step s = .fault (.noInstruction w t) ∧ t.ir = w ∧ s.looksLike { t with ir := s.ir }

/-- A step that completes moves PC on by 2, modulo 2^32, and leaves in IR the word that stood at PC (R145, R146, the
spec's decision D3). -/
def Obligations.StepAdvancesPcByTwo : Prop :=
  ∀ s t : State, step s = .next t → t.pc = s.pc + 2 ∧ t.ir = s.byteAt s.pc ++ s.byteAt (s.pc + 1)

/-- A step on a present opcode completes, at any PC and with any operands, when the MMU is `READY` and the next eight
draws are granted: nothing else is an error (R214, the spec's decisions D4, D7). -/
def Obligations.StepCompletesWithStorage : Prop :=
  ∀ (s : State) (st : Store) (i : Instr), s.mmu = .ready st → s.granted 8 →
    decodeWord (s.byteAt s.pc ++ s.byteAt (s.pc + 1)) = some i → ∃ t, step s = .next t

/-- A step is refused exactly while the MMU is `UNINIT` (R190, R77, the spec's decision D18). -/
def Obligations.StepRefusedExactlyBeforeInitialize : Prop :=
  ∀ (s : State) (r : Refusal), step s = .refused r ↔ s.mmu = .uninit ∧ r = .mmuNotInitialized

/-- Whatever a step faults with, the state it leaves has the PC, SR, D and control registers and every byte it had, a
well-formed MMU if it had one, and address registers decremented at most twice; after `NoInstruction` the address
registers are unchanged and the opcode is the word at PC (R219, the spec's decision D22). -/
def Obligations.StepFaultsArePrecise : Prop :=
  ∀ (s : State) (r : Fault), step s = .fault r →
    r.final.pc = s.pc ∧ r.final.sr = s.sr ∧ r.final.d = s.d ∧ r.final.ctrl = s.ctrl ∧
    (∀ k, r.final.byteAt k = s.byteAt k) ∧ (s.mmu.wf → r.final.mmu.wf) ∧
    (∀ n, r.final.aReg n = s.aReg n ∨ r.final.aReg n = s.aReg n - 1 ∨ r.final.aReg n = s.aReg n - 2) ∧
    (∀ w t, r = .noInstruction w t → t.a = s.a ∧ t.ir = w ∧ w = s.byteAt s.pc ++ s.byteAt (s.pc + 1) ∧
      decodeWord w = none)

/-- No step ever turns Z on: a set Z after a step was set before it (R167, R249). -/
def Obligations.NoStepSetsZ : Prop :=
  ∀ s t : State, step s = .next t → t.flag .z = true → s.flag .z = true

/-- No step changes a control register, the supervisor byte of SR or its unused bits (R33, R34, R216, R222, R224). That
these are bits 15:5 of SR is R29's and R30's decision D8 (log 3); that the unused bits are plain storage is R33's decision
D20. -/
def Obligations.StepLeavesSupervisorState : Prop :=
  ∀ s t : State, step s = .next t → t.ctrl = s.ctrl ∧ ∀ j < 16, 5 ≤ j → t.sr.getLsbD j = s.sr.getLsbD j

/-! ## Whole-machine rules -/

/-- The reset state satisfies the invariant. -/
def Obligations.ResetSatisfiesTheInvariant : Prop := State.reset.Inv

/-- Every step keeps the invariant: R67's presence, sets in rising order, memory in canonical form inside present
pages. -/
def Obligations.StepKeepsTheInvariant : Prop := ∀ s t : State, s.Inv → step s = .next t → t.Inv

/-- Every transaction of the host keeps the invariant, and so does the state of every fault (R67, R219). -/
def Obligations.TransactionsKeepTheInvariant : Prop :=
  ∀ (r : Request) (s : State), s.Inv →
    (∀ t v, transact r s = .next (t, v) → t.Inv) ∧ (∀ f, transact r s = .fault f → f.final.Inv)

/-- What the spec calls inert is inert: a step from a state with other supervisor bits, unused bits and control
registers is the same step, and carries those along untouched (R33, R34, R216, R222, R223, R224, the spec's decision
D23; for the unused bits D20). That what is replaced is bits 15:5 of SR is R29's and R30's decision D8 (log 3). -/
def Obligations.SupervisorStateIsInert : Prop :=
  ∀ (b : BitVec 11) (c : ControlRegs) (s : State),
    step (s.withInert b c) = mapOutcome (State.withInert b c) (step s)

/-- A program cannot see which tables and pages exist: from two states with the same registers and bytes, steps that
complete lead to states with the same registers and bytes (R78, R95), the parameter `abcd_v` being the same in both. -/
def Obligations.PagesAreInvisibleToPrograms : Prop :=
  ∀ s s' t t' : State, s.looksLike s' → step s = .next t → step s' = .next t' → t.looksLike t'

end
end

