-- ==== Sys2Proof/Laws/State.lean ====
section
/-! SUPPORT. One lemma per field per update of the state, and the read-after-write laws of its accessors, so that no
later proof unfolds a record update. -/

namespace Sys2Proof.Machine

section Updates
variable (s : State)

@[simp] theorem setD_d (n : RegNum) (v : Long) : (s.setD n v).d = s.d.set n v := rfl
@[simp] theorem setD_a (n : RegNum) (v : Long) : (s.setD n v).a = s.a := rfl
@[simp] theorem setD_pc (n : RegNum) (v : Long) : (s.setD n v).pc = s.pc := rfl
@[simp] theorem setD_sr (n : RegNum) (v : Long) : (s.setD n v).sr = s.sr := rfl
@[simp] theorem setD_ctrl (n : RegNum) (v : Long) : (s.setD n v).ctrl = s.ctrl := rfl
@[simp] theorem setD_ir (n : RegNum) (v : Long) : (s.setD n v).ir = s.ir := rfl
@[simp] theorem setD_mmu (n : RegNum) (v : Long) : (s.setD n v).mmu = s.mmu := rfl
@[simp] theorem setD_draws (n : RegNum) (v : Long) : (s.setD n v).draws = s.draws := rfl
@[simp] theorem setD_drawCount (n : RegNum) (v : Long) : (s.setD n v).drawCount = s.drawCount := rfl
@[simp] theorem setD_abcdVDiffers (n : RegNum) (v : Long) : (s.setD n v).abcdVDiffers = s.abcdVDiffers := rfl

@[simp] theorem setA_d (n : RegNum) (v : Long) : (s.setA n v).d = s.d := rfl
@[simp] theorem setA_a (n : RegNum) (v : Long) : (s.setA n v).a = s.a.set n v := rfl
@[simp] theorem setA_pc (n : RegNum) (v : Long) : (s.setA n v).pc = s.pc := rfl
@[simp] theorem setA_sr (n : RegNum) (v : Long) : (s.setA n v).sr = s.sr := rfl
@[simp] theorem setA_ctrl (n : RegNum) (v : Long) : (s.setA n v).ctrl = s.ctrl := rfl
@[simp] theorem setA_ir (n : RegNum) (v : Long) : (s.setA n v).ir = s.ir := rfl
@[simp] theorem setA_mmu (n : RegNum) (v : Long) : (s.setA n v).mmu = s.mmu := rfl
@[simp] theorem setA_draws (n : RegNum) (v : Long) : (s.setA n v).draws = s.draws := rfl
@[simp] theorem setA_drawCount (n : RegNum) (v : Long) : (s.setA n v).drawCount = s.drawCount := rfl
@[simp] theorem setA_abcdVDiffers (n : RegNum) (v : Long) : (s.setA n v).abcdVDiffers = s.abcdVDiffers := rfl

@[simp] theorem setPc_d (v : Long) : (s.setPc v).d = s.d := rfl
@[simp] theorem setPc_a (v : Long) : (s.setPc v).a = s.a := rfl
@[simp] theorem setPc_pc (v : Long) : (s.setPc v).pc = v := rfl
@[simp] theorem setPc_sr (v : Long) : (s.setPc v).sr = s.sr := rfl
@[simp] theorem setPc_ctrl (v : Long) : (s.setPc v).ctrl = s.ctrl := rfl
@[simp] theorem setPc_ir (v : Long) : (s.setPc v).ir = s.ir := rfl
@[simp] theorem setPc_mmu (v : Long) : (s.setPc v).mmu = s.mmu := rfl
@[simp] theorem setPc_draws (v : Long) : (s.setPc v).draws = s.draws := rfl
@[simp] theorem setPc_drawCount (v : Long) : (s.setPc v).drawCount = s.drawCount := rfl
@[simp] theorem setPc_abcdVDiffers (v : Long) : (s.setPc v).abcdVDiffers = s.abcdVDiffers := rfl

@[simp] theorem setSr_d (v : Word) : (s.setSr v).d = s.d := rfl
@[simp] theorem setSr_a (v : Word) : (s.setSr v).a = s.a := rfl
@[simp] theorem setSr_pc (v : Word) : (s.setSr v).pc = s.pc := rfl
@[simp] theorem setSr_sr (v : Word) : (s.setSr v).sr = v := rfl
@[simp] theorem setSr_ctrl (v : Word) : (s.setSr v).ctrl = s.ctrl := rfl
@[simp] theorem setSr_ir (v : Word) : (s.setSr v).ir = s.ir := rfl
@[simp] theorem setSr_mmu (v : Word) : (s.setSr v).mmu = s.mmu := rfl
@[simp] theorem setSr_draws (v : Word) : (s.setSr v).draws = s.draws := rfl
@[simp] theorem setSr_drawCount (v : Word) : (s.setSr v).drawCount = s.drawCount := rfl
@[simp] theorem setSr_abcdVDiffers (v : Word) : (s.setSr v).abcdVDiffers = s.abcdVDiffers := rfl

@[simp] theorem setIr_d (w : Word) : (s.setIr w).d = s.d := rfl
@[simp] theorem setIr_a (w : Word) : (s.setIr w).a = s.a := rfl
@[simp] theorem setIr_pc (w : Word) : (s.setIr w).pc = s.pc := rfl
@[simp] theorem setIr_sr (w : Word) : (s.setIr w).sr = s.sr := rfl
@[simp] theorem setIr_ctrl (w : Word) : (s.setIr w).ctrl = s.ctrl := rfl
@[simp] theorem setIr_ir (w : Word) : (s.setIr w).ir = w := rfl
@[simp] theorem setIr_mmu (w : Word) : (s.setIr w).mmu = s.mmu := rfl
@[simp] theorem setIr_draws (w : Word) : (s.setIr w).draws = s.draws := rfl
@[simp] theorem setIr_drawCount (w : Word) : (s.setIr w).drawCount = s.drawCount := rfl
@[simp] theorem setIr_abcdVDiffers (w : Word) : (s.setIr w).abcdVDiffers = s.abcdVDiffers := rfl

@[simp] theorem setCtrl_d (c : ControlRegs) : (s.setCtrl c).d = s.d := rfl
@[simp] theorem setCtrl_a (c : ControlRegs) : (s.setCtrl c).a = s.a := rfl
@[simp] theorem setCtrl_pc (c : ControlRegs) : (s.setCtrl c).pc = s.pc := rfl
@[simp] theorem setCtrl_sr (c : ControlRegs) : (s.setCtrl c).sr = s.sr := rfl
@[simp] theorem setCtrl_ctrl (c : ControlRegs) : (s.setCtrl c).ctrl = c := rfl
@[simp] theorem setCtrl_ir (c : ControlRegs) : (s.setCtrl c).ir = s.ir := rfl
@[simp] theorem setCtrl_mmu (c : ControlRegs) : (s.setCtrl c).mmu = s.mmu := rfl
@[simp] theorem setCtrl_draws (c : ControlRegs) : (s.setCtrl c).draws = s.draws := rfl
@[simp] theorem setCtrl_drawCount (c : ControlRegs) : (s.setCtrl c).drawCount = s.drawCount := rfl
@[simp] theorem setCtrl_abcdVDiffers (c : ControlRegs) : (s.setCtrl c).abcdVDiffers = s.abcdVDiffers := rfl

@[simp] theorem setMmu_d (m : Mmu) : (s.setMmu m).d = s.d := rfl
@[simp] theorem setMmu_a (m : Mmu) : (s.setMmu m).a = s.a := rfl
@[simp] theorem setMmu_pc (m : Mmu) : (s.setMmu m).pc = s.pc := rfl
@[simp] theorem setMmu_sr (m : Mmu) : (s.setMmu m).sr = s.sr := rfl
@[simp] theorem setMmu_ctrl (m : Mmu) : (s.setMmu m).ctrl = s.ctrl := rfl
@[simp] theorem setMmu_ir (m : Mmu) : (s.setMmu m).ir = s.ir := rfl
@[simp] theorem setMmu_mmu (m : Mmu) : (s.setMmu m).mmu = m := rfl
@[simp] theorem setMmu_draws (m : Mmu) : (s.setMmu m).draws = s.draws := rfl
@[simp] theorem setMmu_drawCount (m : Mmu) : (s.setMmu m).drawCount = s.drawCount := rfl
@[simp] theorem setMmu_abcdVDiffers (m : Mmu) : (s.setMmu m).abcdVDiffers = s.abcdVDiffers := rfl

@[simp] theorem dropDraws_d (n : Nat) : (s.dropDraws n).d = s.d := rfl
@[simp] theorem dropDraws_a (n : Nat) : (s.dropDraws n).a = s.a := rfl
@[simp] theorem dropDraws_pc (n : Nat) : (s.dropDraws n).pc = s.pc := rfl
@[simp] theorem dropDraws_sr (n : Nat) : (s.dropDraws n).sr = s.sr := rfl
@[simp] theorem dropDraws_ctrl (n : Nat) : (s.dropDraws n).ctrl = s.ctrl := rfl
@[simp] theorem dropDraws_ir (n : Nat) : (s.dropDraws n).ir = s.ir := rfl
@[simp] theorem dropDraws_mmu (n : Nat) : (s.dropDraws n).mmu = s.mmu := rfl
@[simp] theorem dropDraws_draws (n : Nat) : (s.dropDraws n).draws = s.draws.drop n := rfl
@[simp] theorem dropDraws_drawCount (n : Nat) : (s.dropDraws n).drawCount = s.drawCount + n := rfl
@[simp] theorem dropDraws_abcdVDiffers (n : Nat) : (s.dropDraws n).abcdVDiffers = s.abcdVDiffers := rfl

@[simp] theorem advancePc_d (n : Nat) : (advancePc n s).d = s.d := rfl
@[simp] theorem advancePc_a (n : Nat) : (advancePc n s).a = s.a := rfl
@[simp] theorem advancePc_pc (n : Nat) : (advancePc n s).pc = s.pc + BitVec.ofNat 32 n := rfl
@[simp] theorem advancePc_sr (n : Nat) : (advancePc n s).sr = s.sr := rfl
@[simp] theorem advancePc_ctrl (n : Nat) : (advancePc n s).ctrl = s.ctrl := rfl
@[simp] theorem advancePc_ir (n : Nat) : (advancePc n s).ir = s.ir := rfl
@[simp] theorem advancePc_mmu (n : Nat) : (advancePc n s).mmu = s.mmu := rfl
@[simp] theorem advancePc_draws (n : Nat) : (advancePc n s).draws = s.draws := rfl
@[simp] theorem advancePc_drawCount (n : Nat) : (advancePc n s).drawCount = s.drawCount := rfl
@[simp] theorem advancePc_abcdVDiffers (n : Nat) : (advancePc n s).abcdVDiffers = s.abcdVDiffers := rfl

@[simp] theorem preDecrement_d (n : RegNum) : (preDecrement n s).d = s.d := rfl
@[simp] theorem preDecrement_a (n : RegNum) : (preDecrement n s).a = s.a.set n (s.aReg n - 1) := rfl
@[simp] theorem preDecrement_pc (n : RegNum) : (preDecrement n s).pc = s.pc := rfl
@[simp] theorem preDecrement_sr (n : RegNum) : (preDecrement n s).sr = s.sr := rfl
@[simp] theorem preDecrement_ctrl (n : RegNum) : (preDecrement n s).ctrl = s.ctrl := rfl
@[simp] theorem preDecrement_ir (n : RegNum) : (preDecrement n s).ir = s.ir := rfl
@[simp] theorem preDecrement_mmu (n : RegNum) : (preDecrement n s).mmu = s.mmu := rfl
@[simp] theorem preDecrement_draws (n : RegNum) : (preDecrement n s).draws = s.draws := rfl
@[simp] theorem preDecrement_drawCount (n : RegNum) : (preDecrement n s).drawCount = s.drawCount := rfl
@[simp] theorem preDecrement_abcdVDiffers (n : RegNum) : (preDecrement n s).abcdVDiffers = s.abcdVDiffers := rfl

@[simp] theorem setDByte_d (n : RegNum) (x : Byte) : (s.setDByte n x).d = s.d.set n (writeByteView 3 x (s.dReg n)) := rfl
@[simp] theorem setDByte_a (n : RegNum) (x : Byte) : (s.setDByte n x).a = s.a := rfl
@[simp] theorem setDByte_pc (n : RegNum) (x : Byte) : (s.setDByte n x).pc = s.pc := rfl
@[simp] theorem setDByte_sr (n : RegNum) (x : Byte) : (s.setDByte n x).sr = s.sr := rfl
@[simp] theorem setDByte_ctrl (n : RegNum) (x : Byte) : (s.setDByte n x).ctrl = s.ctrl := rfl
@[simp] theorem setDByte_ir (n : RegNum) (x : Byte) : (s.setDByte n x).ir = s.ir := rfl
@[simp] theorem setDByte_mmu (n : RegNum) (x : Byte) : (s.setDByte n x).mmu = s.mmu := rfl
@[simp] theorem setDByte_draws (n : RegNum) (x : Byte) : (s.setDByte n x).draws = s.draws := rfl
@[simp] theorem setDByte_drawCount (n : RegNum) (x : Byte) : (s.setDByte n x).drawCount = s.drawCount := rfl
@[simp] theorem setDByte_abcdVDiffers (n : RegNum) (x : Byte) : (s.setDByte n x).abcdVDiffers = s.abcdVDiffers := rfl

@[simp] theorem setAbcdFlags_d (dst src : Byte) (x : Bool) :
    (s.setAbcdFlags dst src x).d = s.d := rfl
@[simp] theorem setAbcdFlags_a (dst src : Byte) (x : Bool) :
    (s.setAbcdFlags dst src x).a = s.a := rfl
@[simp] theorem setAbcdFlags_pc (dst src : Byte) (x : Bool) :
    (s.setAbcdFlags dst src x).pc = s.pc := rfl
@[simp] theorem setAbcdFlags_sr (dst src : Byte) (x : Bool) :
    (s.setAbcdFlags dst src x).sr = ccAbcd (abcdV s.abcdVDiffers) (abcdCore dst src x).1 (abcdCore dst src x).2.1
      (abcdCore dst src x).2.2 s.sr := rfl
@[simp] theorem setAbcdFlags_ctrl (dst src : Byte) (x : Bool) :
    (s.setAbcdFlags dst src x).ctrl = s.ctrl := rfl
@[simp] theorem setAbcdFlags_ir (dst src : Byte) (x : Bool) :
    (s.setAbcdFlags dst src x).ir = s.ir := rfl
@[simp] theorem setAbcdFlags_mmu (dst src : Byte) (x : Bool) :
    (s.setAbcdFlags dst src x).mmu = s.mmu := rfl
@[simp] theorem setAbcdFlags_draws (dst src : Byte) (x : Bool) :
    (s.setAbcdFlags dst src x).draws = s.draws := rfl
@[simp] theorem setAbcdFlags_drawCount (dst src : Byte) (x : Bool) :
    (s.setAbcdFlags dst src x).drawCount = s.drawCount := rfl
@[simp] theorem setAbcdFlags_abcdVDiffers (dst src : Byte) (x : Bool) :
    (s.setAbcdFlags dst src x).abcdVDiffers = s.abcdVDiffers := rfl

@[simp] theorem setByte_d (b : Long) (v : Byte) : (s.setByte b v).d = s.d := by
  unfold State.setByte; split <;> rfl
@[simp] theorem setByte_a (b : Long) (v : Byte) : (s.setByte b v).a = s.a := by
  unfold State.setByte; split <;> rfl
@[simp] theorem setByte_pc (b : Long) (v : Byte) : (s.setByte b v).pc = s.pc := by
  unfold State.setByte; split <;> rfl
@[simp] theorem setByte_sr (b : Long) (v : Byte) : (s.setByte b v).sr = s.sr := by
  unfold State.setByte; split <;> rfl
@[simp] theorem setByte_ctrl (b : Long) (v : Byte) : (s.setByte b v).ctrl = s.ctrl := by
  unfold State.setByte; split <;> rfl
@[simp] theorem setByte_ir (b : Long) (v : Byte) : (s.setByte b v).ir = s.ir := by
  unfold State.setByte; split <;> rfl
@[simp] theorem setByte_draws (b : Long) (v : Byte) : (s.setByte b v).draws = s.draws := by
  unfold State.setByte; split <;> rfl
@[simp] theorem setByte_drawCount (b : Long) (v : Byte) : (s.setByte b v).drawCount = s.drawCount := by
  unfold State.setByte; split <;> rfl
@[simp] theorem setByte_abcdVDiffers (b : Long) (v : Byte) : (s.setByte b v).abcdVDiffers = s.abcdVDiffers := by
  unfold State.setByte; split <;> rfl

@[simp] theorem resetBlock_d : (resetBlock s).d = State.reset.d := rfl
@[simp] theorem resetBlock_a : (resetBlock s).a = State.reset.a := rfl
@[simp] theorem resetBlock_pc : (resetBlock s).pc = State.reset.pc := rfl
@[simp] theorem resetBlock_sr : (resetBlock s).sr = State.reset.sr := rfl
@[simp] theorem resetBlock_ctrl : (resetBlock s).ctrl = State.reset.ctrl := rfl
@[simp] theorem resetBlock_ir : (resetBlock s).ir = State.reset.ir := rfl
@[simp] theorem resetBlock_mmu : (resetBlock s).mmu = State.reset.mmu := rfl
@[simp] theorem resetBlock_draws : (resetBlock s).draws = s.draws := rfl
@[simp] theorem resetBlock_drawCount : (resetBlock s).drawCount = s.drawCount := rfl
@[simp] theorem resetBlock_abcdVDiffers : (resetBlock s).abcdVDiffers = s.abcdVDiffers := rfl

/-! The derived reads depend on the one field they read. -/

@[simp] theorem dReg_setD (n m : RegNum) (v : Long) : (s.setD n v).dReg m = if m = n then v else s.dReg m := by
  simp only [State.dReg, State.setD, Fin.getElem_fin, Vector.getElem_set, Fin.ext_iff, eq_comm]

@[simp] theorem aReg_setA (n m : RegNum) (v : Long) : (s.setA n v).aReg m = if m = n then v else s.aReg m := by
  simp only [State.aReg, State.setA, Fin.getElem_fin, Vector.getElem_set, Fin.ext_iff, eq_comm]

@[simp] theorem dReg_setA (n : RegNum) (v : Long) (m : RegNum) : (s.setA n v).dReg m = s.dReg m := rfl
@[simp] theorem dReg_setPc (v : Long) (m : RegNum) : (s.setPc v).dReg m = s.dReg m := rfl
@[simp] theorem dReg_setSr (v : Word) (m : RegNum) : (s.setSr v).dReg m = s.dReg m := rfl
@[simp] theorem dReg_setIr (w : Word) (m : RegNum) : (s.setIr w).dReg m = s.dReg m := rfl
@[simp] theorem dReg_setCtrl (c : ControlRegs) (m : RegNum) : (s.setCtrl c).dReg m = s.dReg m := rfl
@[simp] theorem dReg_setMmu (u : Mmu) (m : RegNum) : (s.setMmu u).dReg m = s.dReg m := rfl
@[simp] theorem dReg_dropDraws (n : Nat) (m : RegNum) : (s.dropDraws n).dReg m = s.dReg m := rfl
@[simp] theorem dReg_advancePc (n : Nat) (m : RegNum) : (advancePc n s).dReg m = s.dReg m := rfl
@[simp] theorem dReg_preDecrement (n : RegNum) (m : RegNum) : (preDecrement n s).dReg m = s.dReg m := rfl
@[simp] theorem dReg_setAbcdFlags (d1 d2 : Byte) (y : Bool) (m : RegNum) : (s.setAbcdFlags d1 d2 y).dReg m = s.dReg m := rfl
@[simp] theorem dReg_setByte (b : Long) (y : Byte) (m : RegNum) : (s.setByte b y).dReg m = s.dReg m := by
  unfold State.setByte; split <;> rfl

@[simp] theorem aReg_setD (n : RegNum) (v : Long) (m : RegNum) : (s.setD n v).aReg m = s.aReg m := rfl
@[simp] theorem aReg_setPc (v : Long) (m : RegNum) : (s.setPc v).aReg m = s.aReg m := rfl
@[simp] theorem aReg_setSr (v : Word) (m : RegNum) : (s.setSr v).aReg m = s.aReg m := rfl
@[simp] theorem aReg_setIr (w : Word) (m : RegNum) : (s.setIr w).aReg m = s.aReg m := rfl
@[simp] theorem aReg_setCtrl (c : ControlRegs) (m : RegNum) : (s.setCtrl c).aReg m = s.aReg m := rfl
@[simp] theorem aReg_setMmu (u : Mmu) (m : RegNum) : (s.setMmu u).aReg m = s.aReg m := rfl
@[simp] theorem aReg_dropDraws (n : Nat) (m : RegNum) : (s.dropDraws n).aReg m = s.aReg m := rfl
@[simp] theorem aReg_advancePc (n : Nat) (m : RegNum) : (advancePc n s).aReg m = s.aReg m := rfl
@[simp] theorem aReg_setDByte (n : RegNum) (y : Byte) (m : RegNum) : (s.setDByte n y).aReg m = s.aReg m := rfl
@[simp] theorem aReg_setAbcdFlags (d1 d2 : Byte) (y : Bool) (m : RegNum) : (s.setAbcdFlags d1 d2 y).aReg m = s.aReg m := rfl
@[simp] theorem aReg_setByte (b : Long) (y : Byte) (m : RegNum) : (s.setByte b y).aReg m = s.aReg m := by
  unfold State.setByte; split <;> rfl

@[simp] theorem byteAt_setD (n : RegNum) (v : Long) (k : Long) : (s.setD n v).byteAt k = s.byteAt k := rfl
@[simp] theorem byteAt_setA (n : RegNum) (v : Long) (k : Long) : (s.setA n v).byteAt k = s.byteAt k := rfl
@[simp] theorem byteAt_setPc (v : Long) (k : Long) : (s.setPc v).byteAt k = s.byteAt k := rfl
@[simp] theorem byteAt_setSr (v : Word) (k : Long) : (s.setSr v).byteAt k = s.byteAt k := rfl
@[simp] theorem byteAt_setIr (w : Word) (k : Long) : (s.setIr w).byteAt k = s.byteAt k := rfl
@[simp] theorem byteAt_setCtrl (c : ControlRegs) (k : Long) : (s.setCtrl c).byteAt k = s.byteAt k := rfl
@[simp] theorem byteAt_dropDraws (n : Nat) (k : Long) : (s.dropDraws n).byteAt k = s.byteAt k := rfl
@[simp] theorem byteAt_advancePc (n : Nat) (k : Long) : (advancePc n s).byteAt k = s.byteAt k := rfl
@[simp] theorem byteAt_preDecrement (n : RegNum) (k : Long) : (preDecrement n s).byteAt k = s.byteAt k := rfl
@[simp] theorem byteAt_setDByte (n : RegNum) (y : Byte) (k : Long) : (s.setDByte n y).byteAt k = s.byteAt k := rfl
@[simp] theorem byteAt_setAbcdFlags (d1 d2 : Byte) (y : Bool) (k : Long) : (s.setAbcdFlags d1 d2 y).byteAt k = s.byteAt k := rfl

@[simp] theorem drawAt_setD (n : RegNum) (v : Long) (k : Nat) : (s.setD n v).drawAt k = s.drawAt k := rfl
@[simp] theorem drawAt_setA (n : RegNum) (v : Long) (k : Nat) : (s.setA n v).drawAt k = s.drawAt k := rfl
@[simp] theorem drawAt_setPc (v : Long) (k : Nat) : (s.setPc v).drawAt k = s.drawAt k := rfl
@[simp] theorem drawAt_setSr (v : Word) (k : Nat) : (s.setSr v).drawAt k = s.drawAt k := rfl
@[simp] theorem drawAt_setIr (w : Word) (k : Nat) : (s.setIr w).drawAt k = s.drawAt k := rfl
@[simp] theorem drawAt_setCtrl (c : ControlRegs) (k : Nat) : (s.setCtrl c).drawAt k = s.drawAt k := rfl
@[simp] theorem drawAt_setMmu (m : Mmu) (k : Nat) : (s.setMmu m).drawAt k = s.drawAt k := rfl
@[simp] theorem drawAt_advancePc (n : Nat) (k : Nat) : (advancePc n s).drawAt k = s.drawAt k := rfl
@[simp] theorem drawAt_preDecrement (n : RegNum) (k : Nat) : (preDecrement n s).drawAt k = s.drawAt k := rfl
@[simp] theorem drawAt_setDByte (n : RegNum) (y : Byte) (k : Nat) : (s.setDByte n y).drawAt k = s.drawAt k := rfl
@[simp] theorem drawAt_setAbcdFlags (d1 d2 : Byte) (y : Bool) (k : Nat) : (s.setAbcdFlags d1 d2 y).drawAt k = s.drawAt k := rfl
@[simp] theorem drawAt_setByte (b : Long) (y : Byte) (k : Nat) : (s.setByte b y).drawAt k = s.drawAt k := by
  unfold State.setByte; split <;> rfl

@[simp] theorem flag_setD (n : RegNum) (v : Long) (f : Flag) : (s.setD n v).flag f = s.flag f := rfl
@[simp] theorem flag_setA (n : RegNum) (v : Long) (f : Flag) : (s.setA n v).flag f = s.flag f := rfl
@[simp] theorem flag_setPc (v : Long) (f : Flag) : (s.setPc v).flag f = s.flag f := rfl
@[simp] theorem flag_setIr (w : Word) (f : Flag) : (s.setIr w).flag f = s.flag f := rfl
@[simp] theorem flag_setCtrl (c : ControlRegs) (f : Flag) : (s.setCtrl c).flag f = s.flag f := rfl
@[simp] theorem flag_setMmu (m : Mmu) (f : Flag) : (s.setMmu m).flag f = s.flag f := rfl
@[simp] theorem flag_dropDraws (n : Nat) (f : Flag) : (s.dropDraws n).flag f = s.flag f := rfl
@[simp] theorem flag_advancePc (n : Nat) (f : Flag) : (advancePc n s).flag f = s.flag f := rfl
@[simp] theorem flag_preDecrement (n : RegNum) (f : Flag) : (preDecrement n s).flag f = s.flag f := rfl
@[simp] theorem flag_setDByte (n : RegNum) (y : Byte) (f : Flag) : (s.setDByte n y).flag f = s.flag f := rfl
@[simp] theorem flag_setByte (b : Long) (y : Byte) (f : Flag) : (s.setByte b y).flag f = s.flag f := by
  unfold State.setByte; split <;> rfl

@[simp] theorem dReg_setDByte (n m : RegNum) (x : Byte) :
    (s.setDByte n x).dReg m = if m = n then writeByteView 3 x (s.dReg n) else s.dReg m := dReg_setD s n m _

@[simp] theorem aReg_preDecrement (n m : RegNum) :
    (preDecrement n s).aReg m = if m = n then s.aReg n - 1 else s.aReg m := aReg_setA s n m _

@[simp] theorem byteAt_setMmu_ready (st : Store) (k : Long) : (s.setMmu (.ready st)).byteAt k = st.byteAt k := rfl

theorem byteAt_of_ready {s : State} {st : Store} (h : s.mmu = .ready st) (k : Long) : s.byteAt k = st.byteAt k := by
  simp [State.byteAt, h]

theorem setByte_of_ready {s : State} {st : Store} (h : s.mmu = .ready st) (b : Long) (v : Byte) :
    s.setByte b v = s.setMmu (.ready (st.setByte b v)) := by
  simp [State.setByte, h]

@[simp] theorem drawAt_dropDraws (n k : Nat) : (s.dropDraws n).drawAt k = s.drawAt (n + k) := by
  simp [State.drawAt, Nat.add_assoc]

@[simp] theorem dropDraws_zero : s.dropDraws 0 = s := rfl

@[simp] theorem dropDraws_dropDraws (m n : Nat) : (s.dropDraws m).dropDraws n = s.dropDraws (m + n) := by
  simp [State.dropDraws, Nat.add_assoc]

@[simp] theorem setMmu_setMmu (m m' : Mmu) : (s.setMmu m).setMmu m' = s.setMmu m' := rfl

theorem setMmu_self {s : State} {m : Mmu} (h : s.mmu = m) : s.setMmu m = s := by subst h; rfl

@[simp] theorem dropDraws_setMmu (m : Mmu) (n : Nat) : (s.setMmu m).dropDraws n = (s.dropDraws n).setMmu m := rfl

end Updates

/-! Sequencing. -/

section Sequencing
variable {α β : Type}

@[simp] theorem andThen_next (x : α) (f : α → Result β) : andThen (.next x) f = f x := rfl

@[simp] theorem andThen_fault (r : Fault) (f : α → Result β) : andThen (.fault r) f = .fault r := rfl

@[simp] theorem andThen_refused (r : Refusal) (f : α → Result β) : andThen (.refused r) f = .refused r := rfl

/-- A sequence completes exactly when its first part does and then its second. -/
theorem andThen_eq_next {o : Result α} {f : α → Result β} {y : β} :
    andThen o f = .next y ↔ ∃ x, o = .next x ∧ f x = .next y := by
  cases o <;> simp [andThen]

/-- A sequence faults exactly when its first part does, or that completes and its second part does. -/
theorem andThen_eq_fault {o : Result α} {f : α → Result β} {r : Fault} :
    andThen o f = .fault r ↔ o = .fault r ∨ ∃ x, o = .next x ∧ f x = .fault r := by
  cases o <;> simp [andThen]

/-- A sequence is refused exactly when its first part is, or that completes and its second part is. -/
theorem andThen_eq_refused {o : Result α} {f : α → Result β} {r : Refusal} :
    andThen o f = .refused r ↔ o = .refused r ∨ ∃ x, o = .next x ∧ f x = .refused r := by
  cases o <;> simp [andThen]

end Sequencing

end Sys2Proof.Machine
end

