-- ==== Sys2Proof/Laws/Cells.lean ====
section
/-! SUPPORT. The laws of sparse arrays and of insertion into a rising list: read after write, and that a write keeps
the canonical form. -/

namespace Sys2Proof.Machine

section InsertBy
variable {α : Type} (key : α → Nat)

@[simp] theorem mem_insertBy (x z : α) (l : List α) : z ∈ insertBy key x l ↔ z = x ∨ z ∈ l := by
  induction l with
  | nil => simp [insertBy]
  | cons y ys ih =>
    unfold insertBy
    split
    · simp
    · simp only [List.mem_cons, ih]; tauto

/-- Inserting an element whose key is not there keeps the list rising. -/
theorem pairwise_insertBy {x : α} {l : List α} (hl : l.Pairwise fun y z => key y < key z)
    (hx : ∀ y ∈ l, key y ≠ key x) : (insertBy key x l).Pairwise fun y z => key y < key z := by
  induction l with
  | nil => simp [insertBy]
  | cons y ys ih =>
    obtain ⟨hy, hys⟩ := List.pairwise_cons.mp hl
    have hne : key y ≠ key x := hx y (by simp)
    unfold insertBy
    split
    next hlt =>
      refine List.pairwise_cons.mpr ⟨fun z hz => ?_, hl⟩
      rcases List.mem_cons.mp hz with rfl | hz
      · exact hlt
      · exact hlt.trans (hy z hz)
    next hge =>
      refine List.pairwise_cons.mpr ⟨fun z hz => ?_, ih hys fun z hz => hx z (by simp [hz])⟩
      rcases (mem_insertBy key x z ys).mp hz with rfl | hz
      · omega
      · exact hy z hz

end InsertBy

section Cells
variable {w : Nat}

/-- A key that is not listed reads zero. -/
theorem cellsGet_of_not_listed {m : Cells w} {n : Nat} (h : ∀ c ∈ m, c.1 ≠ n) : cellsGet m n = 0 := by
  induction m with
  | nil => rfl
  | cons c rest ih =>
    have hc : n ≠ c.1 := fun e => h c (by simp) e.symm
    simp only [cellsGet, if_neg hc]
    exact ih fun x hx => h x (by simp [hx])

/-- Reading after keys have been filtered out. -/
theorem cellsGet_filter (f : Nat → Bool) (m : Cells w) (n : Nat) :
    cellsGet (m.filter fun c => f c.1) n = if f n then cellsGet m n else 0 := by
  induction m with
  | nil => simp [cellsGet]
  | cons c rest ih =>
    by_cases hc : f c.1 = true
    · rw [List.filter_cons_of_pos (by simpa using hc)]
      by_cases hn : n = c.1
      · subst hn; simp [cellsGet, hc]
      · simp only [cellsGet, if_neg hn, ih]
    · rw [List.filter_cons_of_neg (by simpa using hc), ih]
      by_cases hn : n = c.1
      · subst hn; simp [hc]
      · simp only [cellsGet, if_neg hn]

/-- Reading after an insertion of a key that was not listed. -/
theorem cellsGet_insertBy {m : Cells w} {k : Nat} (hk : ∀ c ∈ m, c.1 ≠ k) (v : BitVec w) (n : Nat) :
    cellsGet (insertBy Prod.fst (k, v) m) n = if n = k then v else cellsGet m n := by
  induction m with
  | nil => simp [insertBy, cellsGet]
  | cons c rest ih =>
    unfold insertBy
    split
    · simp [cellsGet]
    · have hck : c.1 ≠ k := hk c (by simp)
      by_cases hn : n = c.1
      · have : n ≠ k := hn ▸ hck
        simp [cellsGet, hn, hck]
      · simp only [cellsGet, if_neg hn, ih fun x hx => hk x (by simp [hx])]

/-- Read after write: the written key holds the value, every other key what it held. -/
@[simp] theorem cellsGet_cellsSet (m : Cells w) (k : Nat) (v : BitVec w) (n : Nat) :
    cellsGet (cellsSet m k v) n = if n = k then v else cellsGet m n := by
  have hf : cellsGet (m.filter fun c => c.1 != k) n = if n = k then 0 else cellsGet m n := by
    rw [cellsGet_filter (fun x => x != k)]
    by_cases hn : n = k <;> simp [hn]
  unfold cellsSet
  by_cases hv : v = 0
  · simp only [hv, if_true, hf]
  · have hk : ∀ c ∈ m.filter (fun c => c.1 != k), c.1 ≠ k := fun c hc => by simpa using (List.mem_filter.mp hc).2
    simp only [if_neg hv, cellsGet_insertBy hk, hf]
    split <;> rfl

/-- A listed entry of the written array is the written one or an old one. -/
theorem mem_cellsSet {m : Cells w} {k : Nat} {v : BitVec w} {c : Nat × BitVec w} (h : c ∈ cellsSet m k v) :
    c = (k, v) ∨ c ∈ m := by
  unfold cellsSet at h
  by_cases hv : v = 0
  · simp only [hv, if_true] at h
    exact .inr (List.mem_filter.mp h).1
  · simp only [if_neg hv, mem_insertBy] at h
    exact h.imp_right fun h => (List.mem_filter.mp h).1

theorem cellsWf_nil : cellsWf ([] : Cells w) :=
  ⟨.nil, fun _ h => absurd h (List.not_mem_nil)⟩

theorem cellsWf_filter {m : Cells w} (h : cellsWf m) (f : Nat × BitVec w → Bool) : cellsWf (m.filter f) :=
  ⟨h.1.filter f, fun c hc => h.2 c (List.mem_filter.mp hc).1⟩

/-- A write keeps the canonical form. -/
theorem cellsWf_cellsSet {m : Cells w} (h : cellsWf m) (k : Nat) (v : BitVec w) : cellsWf (cellsSet m k v) := by
  have hf : cellsWf (m.filter fun c => c.1 != k) := cellsWf_filter h _
  unfold cellsSet
  by_cases hv : v = 0
  · simpa only [hv, if_true] using hf
  · simp only [if_neg hv]
    refine ⟨pairwise_insertBy Prod.fst hf.1 fun c hc => by simpa using (List.mem_filter.mp hc).2, fun c hc => ?_⟩
    rcases (mem_insertBy Prod.fst (k, v) c _).mp hc with rfl | hc
    · exact hv
    · exact hf.2 c hc

end Cells

end Sys2Proof.Machine
end

