-- ==== Sys2Proof/Laws/Mmu.lean ====
section
/-! SUPPORT. The laws of the paged store: the address split, what a translation adds, that it changes no byte, that a
byte write changes one byte, and that both keep the store well formed. -/

namespace Sys2Proof.Machine

/-! ## Addresses -/

/-- The location of an address determines it, and every location is some address's (20_memory.md R75). -/
@[simp] theorem address_splitAddress (a : Long) : (splitAddress a).address = a := by
  apply BitVec.eq_of_getLsbD_eq
  intro i hi
  simp only [splitAddress, Location.address, dirIndex, tblIndex, pageOffset, BitVec.getLsbD_append,
    BitVec.getLsbD_extractLsb']
  by_cases h1 : i < 12
  · simp [h1]
  · by_cases h2 : i - 12 < 10
    · simp only [h1, h2, if_false, if_true, decide_true, Bool.true_and]
      congr 1; omega
    · have h3 : i - 12 - 10 < 10 := by omega
      simp only [h1, h2, h3, if_false, decide_true, Bool.true_and]
      congr 1; omega

@[simp] theorem splitAddress_address (l : Location) : splitAddress l.address = l := by
  obtain ⟨d, t, o⟩ := l
  simp only [splitAddress, Location.address, dirIndex, tblIndex, pageOffset, Location.mk.injEq]
  refine ⟨?_, ?_, ?_⟩ <;> apply BitVec.eq_of_getLsbD_eq <;> intro i hi <;>
    simp only [BitVec.getLsbD_extractLsb', BitVec.getLsbD_append]
  · have h1 : ¬ 22 + i < 12 := by omega
    have h2 : ¬ 22 + i - 12 < 10 := by omega
    have h3 : 22 + i - 12 - 10 = i := by omega
    simp only [h1, h2, h3, hi, decide_true, Bool.true_and, if_false]
  · have h1 : ¬ 12 + i < 12 := by omega
    have h2 : 12 + i - 12 = i := by omega
    simp only [h1, h2, hi, decide_true, Bool.true_and, if_false, if_true]
  · simp [hi]

@[simp] theorem pageOf_ofNat_toNat (a : Long) : pageOf (BitVec.ofNat 32 a.toNat) = pageOf a := by simp

theorem pageOf_fst (a : Long) : (pageOf a).1 = dirIndex a := rfl

/-- The order of the pages tells pages apart. -/
theorem pageKey_injective {p q : PageIndex} (h : pageKey p = pageKey q) : p = q := by
  have hp := p.2.isLt
  have hq := q.2.isLt
  unfold pageKey at h
  refine Prod.ext (BitVec.eq_of_toNat_eq ?_) (BitVec.eq_of_toNat_eq ?_) <;> omega

/-! ## What a translation adds -/

section Touch
variable (st : Store) (a b : Long)

@[simp] theorem mem_tables_withTable (x : BitVec 10) : x ∈ (st.withTable a).tables ↔ x = dirIndex a ∨ x ∈ st.tables := by
  unfold Store.withTable
  split
  next h => exact ⟨.inr, fun hx => hx.elim (· ▸ h) id⟩
  next => simp [Store.addTable]

@[simp] theorem pages_withTable : (st.withTable a).pages = st.pages := by unfold Store.withTable; split <;> rfl

@[simp] theorem mem_withTable : (st.withTable a).mem = st.mem := by unfold Store.withTable; split <;> rfl

@[simp] theorem mem_pages_withPage (p : PageIndex) : p ∈ (st.withPage a).pages ↔ p = pageOf a ∨ p ∈ st.pages := by
  unfold Store.withPage
  split
  next h => exact ⟨.inr, fun hx => hx.elim (· ▸ h) id⟩
  next => simp [Store.addPage]

@[simp] theorem tables_withPage : (st.withPage a).tables = st.tables := by unfold Store.withPage; split <;> rfl

@[simp] theorem mem_tables_touch (x : BitVec 10) : x ∈ (st.touch a).tables ↔ x = dirIndex a ∨ x ∈ st.tables := by
  simp [Store.touch]

@[simp] theorem mem_pages_touch (p : PageIndex) : p ∈ (st.touch a).pages ↔ p = pageOf a ∨ p ∈ st.pages := by
  simp [Store.touch]

@[simp] theorem byteAt_withTable : (st.withTable a).byteAt b = st.byteAt b := by simp [Store.byteAt]

/-- A new page reads zero, as its bytes read before it was there. -/
@[simp] theorem byteAt_withPage : (st.withPage a).byteAt b = st.byteAt b := by
  unfold Store.withPage
  split
  next => rfl
  next h =>
    simp only [Store.byteAt, Store.addPage, mem_insertBy]
    rw [cellsGet_filter (fun k => pageOf (BitVec.ofNat 32 k) != pageOf a)]
    by_cases hb : pageOf b = pageOf a
    · simp [hb, h]
    · simp [hb]

/-- A translation changes no byte (20_memory.md R78). -/
@[simp] theorem byteAt_touch : (st.touch a).byteAt b = st.byteAt b := by simp [Store.touch]

/-- A present location needs nothing. -/
theorem touch_of_present {st : Store} {a : Long} (ht : dirIndex a ∈ st.tables) (hp : pageOf a ∈ st.pages) :
    st.touch a = st ∧ st.drawsFor a = 0 := by
  simp [Store.touch, Store.withTable, Store.withPage, Store.drawsFor, ht, hp]

/-- A touched location is present, so touching it again changes nothing and takes no draw. -/
@[simp] theorem touch_touch : (st.touch a).touch a = st.touch a := (touch_of_present (by simp) (by simp)).1

@[simp] theorem drawsFor_touch : (st.touch a).drawsFor a = 0 := (touch_of_present (by simp) (by simp)).2

@[simp] theorem touchAll_nil : st.touchAll [] = st := rfl

@[simp] theorem touchAll_cons (as : List Long) : st.touchAll (a :: as) = (st.touch a).touchAll as := rfl

@[simp] theorem drawsForAll_nil : st.drawsForAll [] = 0 := rfl

@[simp] theorem drawsForAll_cons (as : List Long) :
    st.drawsForAll (a :: as) = st.drawsFor a + (st.touch a).drawsForAll as := rfl

@[simp] theorem byteAt_touchAll (as : List Long) : (st.touchAll as).byteAt b = st.byteAt b := by
  induction as generalizing st with
  | nil => rfl
  | cons x xs ih => simp [ih]

@[simp] theorem mem_tables_touchAll (as : List Long) (x : BitVec 10) :
    x ∈ (st.touchAll as).tables ↔ (∃ c ∈ as, x = dirIndex c) ∨ x ∈ st.tables := by
  induction as generalizing st with
  | nil => simp
  | cons y ys ih =>
    simp only [touchAll_cons, ih, mem_tables_touch, List.mem_cons, exists_eq_or_imp]
    rw [or_left_comm, ← or_assoc]

@[simp] theorem mem_pages_touchAll (as : List Long) (p : PageIndex) :
    p ∈ (st.touchAll as).pages ↔ (∃ c ∈ as, p = pageOf c) ∨ p ∈ st.pages := by
  induction as generalizing st with
  | nil => simp
  | cons y ys ih =>
    simp only [touchAll_cons, ih, mem_pages_touch, List.mem_cons, exists_eq_or_imp]
    rw [or_left_comm, ← or_assoc]

/-- Addresses all present need nothing. -/
theorem touchAll_of_present {st : Store} {as : List Long}
    (h : ∀ c ∈ as, dirIndex c ∈ st.tables ∧ pageOf c ∈ st.pages) : st.touchAll as = st ∧ st.drawsForAll as = 0 := by
  induction as with
  | nil => simp
  | cons c cs ih =>
    have hc := touch_of_present (h c (by simp)).1 (h c (by simp)).2
    have ih := ih fun x hx => h x (by simp [hx])
    simp [hc.1, hc.2, ih.1, ih.2]

/-- After a successful access the same access needs nothing. -/
theorem touchAll_again (as : List Long) :
    (st.touchAll as).touchAll as = st.touchAll as ∧ (st.touchAll as).drawsForAll as = 0 :=
  touchAll_of_present fun c hc => by
    simp only [mem_tables_touchAll, mem_pages_touchAll]
    exact ⟨.inl ⟨c, hc, rfl⟩, .inl ⟨c, hc, rfl⟩⟩

end Touch

/-! ## Byte writes -/

@[simp] theorem tables_setByte (st : Store) (a : Long) (v : Byte) : (st.setByte a v).tables = st.tables := rfl

@[simp] theorem pages_setByte (st : Store) (a : Long) (v : Byte) : (st.setByte a v).pages = st.pages := rfl

/-- Read after write of one byte of a present page. -/
theorem byteAt_setByte {st : Store} {a : Long} (h : pageOf a ∈ st.pages) (v : Byte) (b : Long) :
    (st.setByte a v).byteAt b = if b = a then v else st.byteAt b := by
  simp only [Store.byteAt, pages_setByte]
  simp only [Store.setByte, cellsGet_cellsSet, BitVec.toNat_inj]
  by_cases hb : b = a
  · subst hb; simp [h]
  · simp [hb]

/-! ## Well-formedness -/

/-- A new table keeps the store well formed. -/
theorem wf_withTable {st : Store} (h : st.wf) (a : Long) : (st.withTable a).wf := by
  unfold Store.withTable
  split
  next => exact h
  next hd =>
    obtain ⟨⟨hp, h0, h00⟩, ⟨hts, hps⟩, hm, hc⟩ := h
    refine ⟨⟨fun p hpp => ?_, ?_, h00⟩, ⟨pairwise_insertBy BitVec.toNat hts fun y hy e => hd ?_, hps⟩, hm, hc⟩
    · exact (mem_insertBy _ _ _ _).mpr (.inr (hp p hpp))
    · exact (mem_insertBy _ _ _ _).mpr (.inr h0)
    · exact (BitVec.eq_of_toNat_eq e) ▸ hy

/-- A new page whose table is there keeps the store well formed. -/
theorem wf_withPage {st : Store} (h : st.wf) {a : Long} (ht : dirIndex a ∈ st.tables) : (st.withPage a).wf := by
  unfold Store.withPage
  split
  next => exact h
  next hd =>
    obtain ⟨⟨hp, h0, h00⟩, ⟨hts, hps⟩, hm, hc⟩ := h
    refine ⟨⟨fun p hpp => ?_, h0, (mem_insertBy _ _ _ _).mpr (.inr h00)⟩,
      ⟨hts, pairwise_insertBy pageKey hps fun y hy e => hd (pageKey_injective e ▸ hy)⟩, cellsWf_filter hm _,
      fun c hcc => ?_⟩
    · rcases (mem_insertBy _ _ _ _).mp hpp with rfl | hpp
      · exact ht
      · exact hp p hpp
    · have hcm := hc c (List.mem_filter.mp hcc).1
      exact ⟨hcm.1, (mem_insertBy _ _ _ _).mpr (.inr hcm.2)⟩

/-- A translation keeps the store well formed. -/
theorem wf_touch {st : Store} (h : st.wf) (a : Long) : (st.touch a).wf := wf_withPage (wf_withTable h a) (by simp)

theorem wf_touchAll {st : Store} (h : st.wf) (as : List Long) : (st.touchAll as).wf := by
  induction as generalizing st with
  | nil => exact h
  | cons a as ih => exact ih (wf_touch h a)

/-- A byte write into a present page keeps the store well formed. -/
theorem wf_setByte {st : Store} (h : st.wf) {a : Long} (hp : pageOf a ∈ st.pages) (v : Byte) : (st.setByte a v).wf := by
  obtain ⟨hpres, hl, hm, hc⟩ := h
  refine ⟨hpres, hl, cellsWf_cellsSet hm _ _, fun c hcc => ?_⟩
  rcases mem_cellsSet hcc with rfl | hcc
  · exact ⟨a.isLt, by simpa using hp⟩
  · exact hc c hcc

theorem wf_fresh : Store.fresh.wf :=
  ⟨by simp [Store.presence, Store.fresh], by simp [Store.listed, Store.fresh], cellsWf_nil, by simp [Store.fresh]⟩

/-! ## What a store can grow into -/

/-- `st'` holds the bytes of `st`, has lost no table and no page, and is well formed if `st` is: what any number of
allocations leaves. -/
def Store.Extends (st st' : Store) : Prop :=
  (∀ a, st'.byteAt a = st.byteAt a) ∧ (∀ d ∈ st.tables, d ∈ st'.tables) ∧ (∀ p ∈ st.pages, p ∈ st'.pages) ∧
    (st.wf → st'.wf)

theorem Store.Extends.refl (st : Store) : st.Extends st := ⟨fun _ => rfl, fun _ h => h, fun _ h => h, id⟩

theorem Store.Extends.trans {st1 st2 st3 : Store} (h : st1.Extends st2) (g : st2.Extends st3) : st1.Extends st3 :=
  ⟨fun a => (g.1 a).trans (h.1 a), fun d hd => g.2.1 d (h.2.1 d hd), fun p hp => g.2.2.1 p (h.2.2.1 p hp),
    fun hw => g.2.2.2 (h.2.2.2 hw)⟩

theorem extends_withTable (st : Store) (a : Long) : st.Extends (st.withTable a) :=
  ⟨fun b => byteAt_withTable st a b, fun d hd => by simp [hd], fun p hp => by simp [hp], fun h => wf_withTable h a⟩

theorem extends_touch (st : Store) (a : Long) : st.Extends (st.touch a) :=
  ⟨fun b => byteAt_touch st a b, fun d hd => by simp [hd], fun p hp => by simp [hp], fun h => wf_touch h a⟩

theorem extends_touchAll (st : Store) (as : List Long) : st.Extends (st.touchAll as) := by
  induction as generalizing st with
  | nil => exact .refl st
  | cons a as ih => exact (extends_touch st a).trans (ih (st.touch a))

end Sys2Proof.Machine
end

