-- ==== Sys2Proof/Laws/Ops.lean ====
section
/-! SUPPORT. One law per shared operation over memory: everything it can do, said once. While the MMU is `UNINIT` it
is refused; while `READY` it completes exactly when the draws it takes are granted, and otherwise ends in
`AllocFailure` with a store the old one extends to. -/

namespace Sys2Proof.Machine

section
variable {s : State} {st : Store}

/-! ## Draws -/

theorem askStorage_granted (address : Option Long) (h : s.drawAt 0 = true) :
    askStorage address s = .next (s.dropDraws 1) := by
  simp [askStorage, h]

theorem askStorage_denied (address : Option Long) (h : s.drawAt 0 = false) :
    askStorage address s = .fault (.allocFailure address (s.dropDraws 1)) := by
  simp [askStorage, raiseAllocFailure, h]

theorem granted_mono {m n : Nat} (h : s.granted n) (hmn : m ≤ n) : s.granted m := fun k hk => h k (hk.trans_le hmn)

/-- The next `m + n` draws are granted exactly when the next `m` are and the `n` after them. -/
theorem granted_add {m n : Nat} : s.granted (m + n) ↔ s.granted m ∧ (s.dropDraws m).granted n := by
  constructor
  · intro h
    exact ⟨fun k hk => h k (by omega), fun k hk => by simpa using h (m + k) (by omega)⟩
  · rintro ⟨h1, h2⟩ k hk
    by_cases hkm : k < m
    · exact h1 k hkm
    · have := h2 (k - m) (by omega)
      rwa [drawAt_dropDraws, Nat.add_sub_cancel' (by omega)] at this

@[simp] theorem granted_zero : s.granted 0 := fun _ h => absurd h (Nat.not_lt_zero _)

@[simp] theorem granted_setMmu (m : Mmu) (n : Nat) : (s.setMmu m).granted n ↔ s.granted n := by simp [State.granted]

/-! ## Translation -/

/-- The table of an address: there already, or one draw. -/
theorem ensureTable_ready (h : s.mmu = .ready st) (a : Long) :
    (s.granted (if dirIndex a ∈ st.tables then 0 else 1) ∧
      ensureTable a s =
        .next ((s.dropDraws (if dirIndex a ∈ st.tables then 0 else 1)).setMmu (.ready (st.withTable a)))) ∨
    (dirIndex a ∉ st.tables ∧ s.drawAt 0 = false ∧
      ensureTable a s = .fault (.allocFailure (some a) (s.dropDraws 1))) := by
  by_cases ht : dirIndex a ∈ st.tables
  · left
    simp [ensureTable, h, ht, Store.withTable, setMmu_self h]
  · cases hd : s.drawAt 0 with
    | false => exact .inr ⟨ht, rfl, by simp [ensureTable, h, ht, askStorage_denied _ hd]⟩
    | true => exact .inl ⟨by simpa [State.granted, ht] using hd,
        by simp [ensureTable, h, ht, askStorage_granted _ hd, Store.withTable]⟩

/-- The page of an address: there already, or one draw. -/
theorem ensurePage_ready (h : s.mmu = .ready st) (a : Long) :
    (s.granted (if pageOf a ∈ st.pages then 0 else 1) ∧
      ensurePage a s =
        .next ((s.dropDraws (if pageOf a ∈ st.pages then 0 else 1)).setMmu (.ready (st.withPage a)))) ∨
    (pageOf a ∉ st.pages ∧ s.drawAt 0 = false ∧
      ensurePage a s = .fault (.allocFailure (some a) (s.dropDraws 1))) := by
  by_cases hp : pageOf a ∈ st.pages
  · left
    simp [ensurePage, h, hp, Store.withPage, setMmu_self h]
  · cases hd : s.drawAt 0 with
    | false => exact .inr ⟨hp, rfl, by simp [ensurePage, h, hp, askStorage_denied _ hd]⟩
    | true => exact .inl ⟨by simpa [State.granted, hp] using hd,
        by simp [ensurePage, h, hp, askStorage_granted _ hd, Store.withPage]⟩

/-- What a refused draw leaves (20_memory.md R74, 60_exceptions.md R219): the draws up to the refused one are taken,
and the store has at most grown. -/
def DeniedAt (address : Long) (s : State) (st : Store) (n : Nat) (r : Fault) : Prop :=
  ∃ k st', r = .allocFailure (some address) ((s.dropDraws (k + 1)).setMmu (.ready st')) ∧ k < n ∧
    s.granted k ∧ s.drawAt k = false ∧ st.Extends st'

/-- Everything `translate` can do while the MMU is `READY`. -/
theorem translate_ready (h : s.mmu = .ready st) (a : Long) :
    (s.granted (st.drawsFor a) ∧
      translate a s = .next ((s.dropDraws (st.drawsFor a)).setMmu (.ready (st.touch a)), splitAddress a)) ∨
    (∃ r, translate a s = .fault r ∧ DeniedAt a s st (st.drawsFor a) r) := by
  rcases ensureTable_ready h a with ⟨hg1, he1⟩ | ⟨ht, hd, he1⟩
  · have hm : ((s.dropDraws (if dirIndex a ∈ st.tables then 0 else 1)).setMmu (.ready (st.withTable a))).mmu =
        .ready (st.withTable a) := rfl
    have hpg : (st.withTable a).pages = st.pages := pages_withTable st a
    rcases ensurePage_ready hm a with ⟨hg2, he2⟩ | ⟨hp, hd, he2⟩
    · left
      rw [hpg] at hg2 he2
      refine ⟨granted_add.mpr ⟨hg1, by simpa using hg2⟩, ?_⟩
      simp [translate, he1, he2, Store.drawsFor, Store.touch]
    · right
      rw [hpg] at hp
      refine ⟨_, by simp only [translate, he1, andThen_next, he2, andThen_fault]; rfl,
        if dirIndex a ∈ st.tables then 0 else 1, st.withTable a, ?_, ?_, hg1, by simpa using hd, extends_withTable st a⟩
      · simp
      · simp [Store.drawsFor, hp]
  · right
    refine ⟨_, by simp only [translate, he1, andThen_fault]; rfl, 0, st, ?_, ?_, granted_zero, hd, .refl st⟩
    · simp only [Nat.zero_add]
      rw [setMmu_self (m := .ready st) (by simpa using h)]
    · simp only [Store.drawsFor, if_neg ht]; omega

theorem translate_uninit (h : s.mmu = .uninit) (a : Long) : translate a s = .refused .mmuNotInitialized := by
  simp [translate, ensureTable, h]

theorem DeniedAt.weaken {a : Long} {n m : Nat} {r : Fault} (h : DeniedAt a s st n r) (hnm : n ≤ m) :
    DeniedAt a s st m r := by
  obtain ⟨k, st', hr, hk, hg, hd, hx⟩ := h
  exact ⟨k, st', hr, hk.trans_le hnm, hg, hd, hx⟩

/-- A refused draw of a later part of a sequence, seen from the start. -/
theorem DeniedAt.after {a : Long} {m n : Nat} {st1 : Store} {r : Fault} (hg : s.granted m) (hx : st.Extends st1)
    (h : DeniedAt a ((s.dropDraws m).setMmu (.ready st1)) st1 n r) : DeniedAt a s st (m + n) r := by
  obtain ⟨k, st', hr, hk, hgk, hd, hx'⟩ := h
  refine ⟨m + k, st', ?_, by omega, granted_add.mpr ⟨hg, by simpa using hgk⟩, by simpa using hd, hx.trans hx'⟩
  rw [hr]
  simp [Nat.add_assoc]

/-- Everything the translations of one access can do while the MMU is `READY` (20_memory.md R80). -/
theorem translateAll_ready (h : s.mmu = .ready st) (as : List Long) :
    (s.granted (st.drawsForAll as) ∧
      translateAll as s = .next ((s.dropDraws (st.drawsForAll as)).setMmu (.ready (st.touchAll as)))) ∨
    (∃ a ∈ as, ∃ r, translateAll as s = .fault r ∧ DeniedAt a s st (st.drawsForAll as) r) := by
  induction as generalizing s st with
  | nil => left; simp [translateAll, setMmu_self h]
  | cons a as ih =>
    rcases translate_ready h a with ⟨hg, he⟩ | ⟨r, he, hd⟩
    · have hm : ((s.dropDraws (st.drawsFor a)).setMmu (.ready (st.touch a))).mmu = .ready (st.touch a) := rfl
      rcases ih hm with ⟨hg2, he2⟩ | ⟨b, hb, r, he2, hd⟩
      · exact .inl ⟨granted_add.mpr ⟨hg, by simpa using hg2⟩, by simp [translateAll, he, he2]⟩
      · exact .inr ⟨b, by simp [hb], r, by simp [translateAll, he, he2], hd.after hg (extends_touch st a)⟩
    · exact .inr ⟨a, by simp, r, by simp [translateAll, he], hd.weaken (Nat.le_add_right _ _)⟩

theorem translateAll_uninit (h : s.mmu = .uninit) {as : List Long} (ha : as ≠ []) :
    translateAll as s = .refused .mmuNotInitialized := by
  cases as with
  | nil => exact absurd rfl ha
  | cons a as => simp [translateAll, translate_uninit h]

/-- The translations of an access complete when their draws are granted. -/
theorem translateAll_granted (h : s.mmu = .ready st) {as : List Long} (hg : s.granted (st.drawsForAll as)) :
    translateAll as s = .next ((s.dropDraws (st.drawsForAll as)).setMmu (.ready (st.touchAll as))) := by
  rcases translateAll_ready h as with ⟨_, he⟩ | ⟨_, _, _, _, k, _, _, hk, _, hd, _⟩
  · exact he
  · exact absurd (hg k hk) (by simp [hd])

/-- If the translations of an access complete, this is the state after them. -/
theorem translateAll_eq_next {as : List Long} (ha : as ≠ []) {t : State} (h : translateAll as s = .next t) :
    ∃ st, s.mmu = .ready st ∧ s.granted (st.drawsForAll as) ∧
      t = (s.dropDraws (st.drawsForAll as)).setMmu (.ready (st.touchAll as)) := by
  cases hm : s.mmu with
  | uninit => simp [translateAll_uninit hm ha] at h
  | ready st =>
    rcases translateAll_ready hm as with ⟨hg, he⟩ | ⟨_, _, _, he, _⟩
    · rw [he] at h
      exact ⟨st, rfl, hg, by simpa using h.symm⟩
    · simp [he] at h

/-- If the translations of an access fault, a draw was refused. -/
theorem translateAll_eq_fault {as : List Long} {r : Fault} (h : translateAll as s = .fault r) :
    ∃ st, s.mmu = .ready st ∧ ∃ a ∈ as, DeniedAt a s st (st.drawsForAll as) r := by
  cases hm : s.mmu with
  | uninit =>
    cases as with
    | nil => simp [translateAll] at h
    | cons a as => simp [translateAll_uninit hm] at h
  | ready st =>
    rcases translateAll_ready hm as with ⟨_, he⟩ | ⟨a, ha, r', he, hd⟩
    · simp [he] at h
    · obtain rfl : r' = r := by simpa [he] using h
      exact ⟨st, rfl, a, ha, hd⟩

/-- If the translations of an access are refused, the MMU is `UNINIT`. -/
theorem translateAll_eq_refused {as : List Long} {r : Refusal} (h : translateAll as s = .refused r) :
    s.mmu = .uninit ∧ r = .mmuNotInitialized := by
  cases hm : s.mmu with
  | uninit =>
    cases as with
    | nil => simp [translateAll] at h
    | cons a as => exact ⟨rfl, by simpa [translateAll_uninit hm, eq_comm] using h⟩
  | ready st => rcases translateAll_ready hm as with ⟨_, he⟩ | ⟨_, _, _, he, _⟩ <;> simp [he] at h

end

/-! ## The bytes of an access -/

@[simp] theorem span_one (a : Long) : span a 1 = [a] := by simp [span]

@[simp] theorem span_two (a : Long) : span a 2 = [a, a + 1] := by simp [span, List.range_succ]

@[simp] theorem span_four (a : Long) : span a 4 = [a, a + 1, a + 2, a + 3] := by simp [span, List.range_succ]

theorem span_ne_nil (a : Long) {n : Nat} (h : 0 < n) : span a n ≠ [] := by
  simp [span, List.range_eq_nil]; omega

/-! ## Reads and writes complete -/

section
variable {s : State} {st : Store}

theorem readByte_granted (h : s.mmu = .ready st) {a : Long} (hg : s.granted (st.drawsFor a)) :
    readByte a s = .next ((s.dropDraws (st.drawsFor a)).setMmu (.ready (st.touch a)), s.byteAt a) := by
  have := translateAll_granted h (as := [a]) (by simpa using hg)
  simp [readByte, this, byteAt_of_ready h]

theorem readWord_granted (h : s.mmu = .ready st) {a : Long} (hg : s.granted (st.drawsForAll (span a 2))) :
    readWord a s = .next ((s.dropDraws (st.drawsForAll (span a 2))).setMmu (.ready (st.touchAll (span a 2))),
      s.byteAt a ++ s.byteAt (a + 1)) := by
  rw [readWord, translateAll_granted h hg, andThen_next, byteAt_setMmu_ready, byteAt_setMmu_ready, byteAt_touchAll,
    byteAt_touchAll, byteAt_of_ready h, byteAt_of_ready h]

theorem readLong_granted (h : s.mmu = .ready st) {a : Long} (hg : s.granted (st.drawsForAll (span a 4))) :
    readLong a s = .next ((s.dropDraws (st.drawsForAll (span a 4))).setMmu (.ready (st.touchAll (span a 4))),
      s.byteAt a ++ s.byteAt (a + 1) ++ s.byteAt (a + 2) ++ s.byteAt (a + 3)) := by
  rw [readLong, translateAll_granted h hg, andThen_next]
  simp only [byteAt_setMmu_ready, byteAt_touchAll, byteAt_of_ready h]

theorem writeByte_granted (h : s.mmu = .ready st) {a : Long} (v : Byte) (hg : s.granted (st.drawsFor a)) :
    writeByte a v s = .next ((s.dropDraws (st.drawsFor a)).setMmu (.ready ((st.touch a).setByte a v))) := by
  have := translateAll_granted h (as := [a]) (by simpa using hg)
  simp only [writeByte, span_one, this, andThen_next]
  rw [setByte_of_ready (st := st.touchAll [a]) rfl]
  simp

/-- A byte written through the state shows at its address and nowhere else. -/
theorem byteAt_setByte_state (h : s.mmu = .ready st) {a : Long} (hp : pageOf a ∈ st.pages) (v : Byte) (b : Long) :
    (s.setByte a v).byteAt b = if b = a then v else s.byteAt b := by
  rw [setByte_of_ready h, byteAt_setMmu_ready, byteAt_setByte hp, byteAt_of_ready h]

/-! ## Reads and writes, whatever they answer -/

/-- A read that completes leaves the state its translations leave. -/
theorem readByte_eq_next {a : Long} {t : State} {v : Byte} (h : readByte a s = .next (t, v)) :
    ∃ st, s.mmu = .ready st ∧ s.granted (st.drawsFor a) ∧
      t = (s.dropDraws (st.drawsFor a)).setMmu (.ready (st.touch a)) ∧ v = s.byteAt a := by
  rw [readByte, andThen_eq_next] at h
  obtain ⟨u, hu, hv⟩ := h
  obtain ⟨st, hm, hg, rfl⟩ := translateAll_eq_next (span_ne_nil a (by decide)) hu
  obtain ⟨rfl, rfl⟩ : _ ∧ _ := by simpa using hv
  exact ⟨st, hm, by simpa using hg, by simp, by simp [byteAt_of_ready hm]⟩

theorem readByte_eq_fault {a : Long} {r : Fault} (h : readByte a s = .fault r) :
    ∃ st, s.mmu = .ready st ∧ DeniedAt a s st (st.drawsFor a) r := by
  rw [readByte, andThen_eq_fault] at h
  rcases h with h | ⟨_, _, h⟩
  · obtain ⟨st, hm, b, hb, hd⟩ := translateAll_eq_fault h
    obtain rfl : b = a := by simpa using hb
    exact ⟨st, hm, by simpa using hd⟩
  · simp at h

/-- A word read that completes. -/
theorem readWord_eq_next {a : Long} {t : State} {v : Word} (h : readWord a s = .next (t, v)) :
    ∃ st, s.mmu = .ready st ∧ s.granted (st.drawsForAll (span a 2)) ∧
      t = (s.dropDraws (st.drawsForAll (span a 2))).setMmu (.ready (st.touchAll (span a 2))) ∧
      v = s.byteAt a ++ s.byteAt (a + 1) := by
  rw [readWord, andThen_eq_next] at h
  obtain ⟨u, hu, hv⟩ := h
  obtain ⟨st, hm, hg, rfl⟩ := translateAll_eq_next (span_ne_nil a (by decide)) hu
  obtain ⟨rfl, rfl⟩ : _ ∧ _ := by simpa only [Host.Outcome.next.injEq, Prod.mk.injEq] using hv
  exact ⟨st, hm, hg, rfl, by rw [byteAt_setMmu_ready, byteAt_setMmu_ready, byteAt_touchAll, byteAt_touchAll,
    byteAt_of_ready hm, byteAt_of_ready hm]⟩

theorem readWord_eq_fault {a : Long} {r : Fault} (h : readWord a s = .fault r) :
    ∃ st, s.mmu = .ready st ∧ ∃ b ∈ span a 2, DeniedAt b s st (st.drawsForAll (span a 2)) r := by
  rw [readWord, andThen_eq_fault] at h
  rcases h with h | ⟨_, _, h⟩
  · exact translateAll_eq_fault h
  · simp at h

/-! ## The register file keeps its shape -/

theorem readBits_writeBits_self {n : Nat} (v : Long) (lo : Nat) (x : BitVec n) (hn : lo + n ≤ 32) :
    readBits n (writeBits v lo x) lo = x := by
  apply BitVec.eq_of_getLsbD_eq
  intro i hi
  have h1 : lo + i < 32 := by omega
  simp [readBits, writeBits, h1, hi]

/-- A view write replaces exactly the bits of the view (10_state.md R24). -/
theorem getLsbD_writeBits {n : Nat} (v : Long) (lo : Nat) (x : BitVec n) {j : Nat} (hj : j < 32) :
    (writeBits v lo x).getLsbD j = if lo ≤ j ∧ j < lo + n then x.getLsbD (j - lo) else v.getLsbD j := by
  by_cases h1 : lo ≤ j
  · by_cases h2 : j < lo + n
    · have h3 : j - lo < n := by omega
      have h4 : ¬ j < lo := by omega
      simp [writeBits, hj, h1, h2, h3, h4]
    · have h3 : ¬ j - lo < n := by omega
      have h5 : n ≤ j - lo := by omega
      simp [writeBits, hj, h1, h2, h3, BitVec.getLsbD_of_ge x _ h5]
  · have h4 : j < lo := by omega
    simp [writeBits, hj, h1, h4]

end

end Sys2Proof.Machine
end

