-- ==== Sys2Proof/Laws/Access.lean ====
section
/-! SUPPORT. The laws of the six accesses that later proofs cite: what a completed write leaves at every address, that a
read of addresses whose pages are present changes nothing, and what a refused draw leaves. -/

namespace Sys2Proof.Machine

section
variable {s t : State} {st : Store}

/-- The tables and pages of these addresses are present. -/
def Store.Covers (st : Store) (as : List Long) : Prop := ∀ c ∈ as, dirIndex c ∈ st.tables ∧ pageOf c ∈ st.pages

theorem covers_touchAll (st : Store) (as : List Long) : (st.touchAll as).Covers as := fun c hc =>
  ⟨(mem_tables_touchAll ..).mpr (.inl ⟨c, hc, rfl⟩), (mem_pages_touchAll ..).mpr (.inl ⟨c, hc, rfl⟩)⟩

/-- Translating addresses whose pages are present changes nothing (20_memory.md R75). -/
theorem translateAll_covered (hm : s.mmu = .ready st) {as : List Long} (h : st.Covers as) :
    translateAll as s = .next s := by
  have := touchAll_of_present h
  rw [translateAll_granted hm (by rw [this.2]; exact granted_zero), this.1, this.2, dropDraws_zero, setMmu_self hm]

/-- A long read that completes. -/
theorem readLong_eq_next {a : Long} {v : Long} (h : readLong a s = .next (t, v)) :
    ∃ st, s.mmu = .ready st ∧ s.granted (st.drawsForAll (span a 4)) ∧
      t = (s.dropDraws (st.drawsForAll (span a 4))).setMmu (.ready (st.touchAll (span a 4))) ∧
      v = s.byteAt a ++ s.byteAt (a + 1) ++ s.byteAt (a + 2) ++ s.byteAt (a + 3) := by
  rw [readLong, andThen_eq_next] at h
  obtain ⟨u, hu, hv⟩ := h
  obtain ⟨st, hm, hg, rfl⟩ := translateAll_eq_next (span_ne_nil a (by decide)) hu
  obtain ⟨rfl, rfl⟩ : _ ∧ _ := by simpa only [Host.Outcome.next.injEq, Prod.mk.injEq] using hv
  refine ⟨st, hm, hg, rfl, ?_⟩
  simp only [byteAt_setMmu_ready, byteAt_touchAll, byteAt_of_ready hm]

/-- The state after the translations of an access: its registers and bytes are those before. -/
theorem touched_facts (hm : s.mmu = .ready st) (as : List Long) :
    ∃ u, u = (s.dropDraws (st.drawsForAll as)).setMmu (.ready (st.touchAll as)) ∧ u.mmu = .ready (st.touchAll as) ∧
      s.looksLike u :=
  ⟨_, rfl, rfl, ⟨rfl, rfl, rfl, rfl, rfl, rfl⟩, fun k => by
    rw [byteAt_setMmu_ready, byteAt_touchAll, byteAt_of_ready hm], rfl⟩

theorem setByte_mmu (hm : s.mmu = .ready st) (a : Long) (v : Byte) : (s.setByte a v).mmu = .ready (st.setByte a v) := by
  rw [setByte_of_ready hm]; rfl

theorem sameRegisters_setByte (a : Long) (v : Byte) : s.sameRegisters (t.setByte a v) ↔ s.sameRegisters t := by
  simp [State.sameRegisters]

/-- A write that completes is its translations, then its stores. -/
theorem write_eq_next {as : List Long} {f : State → State} (ha : as ≠ [])
    (h : andThen (translateAll as s) (fun u => .next (f u)) = .next t) :
    ∃ st u, s.mmu = .ready st ∧ s.granted (st.drawsForAll as) ∧ u.mmu = .ready (st.touchAll as) ∧ s.looksLike u ∧
      t = f u := by
  rw [andThen_eq_next] at h
  obtain ⟨u, hu, hv⟩ := h
  obtain ⟨st, hm, hg, rfl⟩ := translateAll_eq_next ha hu
  obtain ⟨u, rfl, hum, hl⟩ := touched_facts hm as
  exact ⟨st, _, hm, hg, hum, hl, by simpa using hv.symm⟩

/-- What a completed byte write leaves (R82). -/
theorem writeByte_bytes {a : Long} {v : Byte} (h : writeByte a v s = .next t) :
    s.sameRegisters t ∧ (∃ st, t.mmu = .ready st ∧ st.Covers (span a 1)) ∧
      ∀ k, t.byteAt k = if k = a then v else s.byteAt k := by
  obtain ⟨st, u, hm, _, hum, ⟨hr, hb, _⟩, rfl⟩ := write_eq_next (span_ne_nil a (by decide)) h
  have hc := covers_touchAll st (span a 1)
  refine ⟨by simpa only [sameRegisters_setByte] using hr, ⟨_, setByte_mmu hum a v, hc⟩, fun k => ?_⟩
  rw [byteAt_setByte_state hum (hc a (by simp)).2, hb]

/-- What a completed word write leaves (R82). -/
theorem writeWord_bytes {a : Long} {v : Word} (h : writeWord a v s = .next t) :
    s.sameRegisters t ∧ (∃ st, t.mmu = .ready st ∧ st.Covers (span a 2)) ∧
      ∀ k, t.byteAt k =
        if k = a + 1 then v.extractLsb' 0 8 else if k = a then v.extractLsb' 8 8 else s.byteAt k := by
  obtain ⟨st, u, hm, _, hum, ⟨hr, hb, _⟩, rfl⟩ := write_eq_next (span_ne_nil a (by decide)) h
  have hc := covers_touchAll st (span a 2)
  generalize st.touchAll (span a 2) = st1 at hum hc
  have h1 := setByte_mmu hum a (v.extractLsb' 8 8)
  have h2 := setByte_mmu h1 (a + 1) (v.extractLsb' 0 8)
  refine ⟨by simpa only [sameRegisters_setByte] using hr, ⟨_, h2, hc⟩, fun k => ?_⟩
  rw [byteAt_setByte_state h1 (hc (a + 1) (by simp)).2, byteAt_setByte_state hum (hc a (by simp)).2, hb]

/-- What a completed long write leaves (R82). -/
theorem writeLong_bytes {a v : Long} (h : writeLong a v s = .next t) :
    s.sameRegisters t ∧ (∃ st, t.mmu = .ready st ∧ st.Covers (span a 4)) ∧
      ∀ k, t.byteAt k =
        if k = a + 3 then v.extractLsb' 0 8 else if k = a + 2 then v.extractLsb' 8 8
        else if k = a + 1 then v.extractLsb' 16 8 else if k = a then v.extractLsb' 24 8 else s.byteAt k := by
  obtain ⟨st, u, hm, _, hum, ⟨hr, hb, _⟩, rfl⟩ := write_eq_next (span_ne_nil a (by decide)) h
  have hc := covers_touchAll st (span a 4)
  generalize st.touchAll (span a 4) = st1 at hum hc
  have h1 := setByte_mmu hum a (v.extractLsb' 24 8)
  have h2 := setByte_mmu h1 (a + 1) (v.extractLsb' 16 8)
  have h3 := setByte_mmu h2 (a + 2) (v.extractLsb' 8 8)
  have h4 := setByte_mmu h3 (a + 3) (v.extractLsb' 0 8)
  refine ⟨by simpa only [sameRegisters_setByte] using hr, ⟨_, h4, hc⟩, fun k => ?_⟩
  rw [byteAt_setByte_state h3 (hc (a + 3) (by simp)).2, byteAt_setByte_state h2 (hc (a + 2) (by simp)).2,
    byteAt_setByte_state h1 (hc (a + 1) (by simp)).2, byteAt_setByte_state hum (hc a (by simp)).2, hb]

/-- Two different bytes of one access of at most four bytes have different addresses, even where it wraps (R84). -/
theorem byte_addresses_differ (a : Long) {m n : Nat} (hm : m < 4) (hn : n < 4) (h : m ≠ n) :
    a + BitVec.ofNat 32 m ≠ a + BitVec.ofNat 32 n := by
  intro e
  have := congrArg BitVec.toNat e
  simp at this; omega

/-- What a refused draw leaves: the registers and bytes as they were, a store the old one extends to. -/
theorem DeniedAt.facts {a : Long} {n : Nat} {r : Fault} (hm : s.mmu = .ready st) (h : DeniedAt a s st n r) :
    ∃ u st', r = .allocFailure (some a) u ∧ s.looksLike u ∧ u.mmu = .ready st' ∧ st.Extends st' ∧
      (s.mmu.wf → u.mmu.wf) := by
  obtain ⟨k, st', rfl, _, _, _, hx⟩ := h
  refine ⟨_, st', rfl, ⟨⟨rfl, rfl, rfl, rfl, rfl, rfl⟩, fun b => ?_, rfl⟩, rfl, hx, fun hw => ?_⟩
  · rw [byteAt_setMmu_ready, byteAt_of_ready hm, hx.1]
  · rw [hm] at hw; exact hx.2.2.2 hw

/-- Everything a byte read can do while the MMU is `READY`. -/
theorem readByte_ready (hm : s.mmu = .ready st) (a : Long) :
    (s.granted (st.drawsFor a) ∧
      readByte a s = .next ((s.dropDraws (st.drawsFor a)).setMmu (.ready (st.touch a)), s.byteAt a)) ∨
    ∃ r, readByte a s = .fault r ∧ DeniedAt a s st (st.drawsFor a) r := by
  rcases translateAll_ready hm [a] with ⟨hg, _⟩ | ⟨b, hb, r, he, hd⟩
  · exact .inl ⟨by simpa using hg, readByte_granted hm (by simpa using hg)⟩
  · obtain rfl : b = a := by simpa using hb
    exact .inr ⟨r, by rw [readByte, span_one, he]; rfl, by simpa using hd⟩

theorem readByte_uninit (hm : s.mmu = .uninit) (a : Long) : readByte a s = .refused .mmuNotInitialized := by
  rw [readByte, translateAll_uninit hm (span_ne_nil a (by decide))]; rfl

/-- Everything a word read can do while the MMU is `READY`. -/
theorem readWord_ready (hm : s.mmu = .ready st) (a : Long) :
    (s.granted (st.drawsForAll (span a 2)) ∧
      readWord a s = .next ((s.dropDraws (st.drawsForAll (span a 2))).setMmu (.ready (st.touchAll (span a 2))),
        s.byteAt a ++ s.byteAt (a + 1))) ∨
    ∃ b ∈ span a 2, ∃ r, readWord a s = .fault r ∧ DeniedAt b s st (st.drawsForAll (span a 2)) r := by
  rcases translateAll_ready hm (span a 2) with ⟨hg, _⟩ | ⟨b, hb, r, he, hd⟩
  · exact .inl ⟨hg, readWord_granted hm hg⟩
  · exact .inr ⟨b, hb, r, by rw [readWord, he]; rfl, hd⟩

theorem readWord_uninit (hm : s.mmu = .uninit) (a : Long) : readWord a s = .refused .mmuNotInitialized := by
  rw [readWord, translateAll_uninit hm (span_ne_nil a (by decide))]; rfl

end

end Sys2Proof.Machine
end

