-- ==== Sys2Proof/Laws/Flags.lean ====
section
/-! SUPPORT. The laws of the status word: what a flag write changes, bit by bit, and what the condition-code update of
ABCD leaves in each bit. -/

namespace Sys2Proof.Machine

theorem flagBit_lt (f : Flag) : flagBit f < 16 := by cases f <;> decide

theorem flagBit_injective {f g : Flag} (h : flagBit f = flagBit g) : f = g := by
  cases f <;> cases g <;> first | rfl | (exfalso; revert h; decide)

/-- A flag write changes the flag's bit and no other (10_state.md R31). -/
theorem getLsbD_writeFlag (f : Flag) (b : Bool) (sr : Word) {j : Nat} (hj : j < 16) :
    (writeFlag f b sr).getLsbD j = if j = flagBit f then b else sr.getLsbD j := by
  by_cases h : j = flagBit f
  · subst h
    simp [writeFlag, hj]
  · by_cases hlt : j < flagBit f
    · simp [writeFlag, hj, h, hlt]
    · have h0 : j - flagBit f ≠ 0 := by omega
      simp [writeFlag, hj, h, h0, BitVec.getLsbD_ofBool]

@[simp] theorem readFlag_writeFlag (f g : Flag) (b : Bool) (sr : Word) :
    readFlag g (writeFlag f b sr) = if g = f then b else readFlag g sr := by
  rw [readFlag, getLsbD_writeFlag f b sr (flagBit_lt g), readFlag]
  by_cases h : g = f
  · simp [h]
  · have hne : flagBit g ≠ flagBit f := fun e => h (flagBit_injective e)
    simp [h, hne]

/-- A field write changes the bits of the field and no other (R31). -/
theorem getLsbD_writeSrField {n : Nat} (lo : Nat) (v : BitVec n) (sr : Word) {j : Nat} (hj : j < 16) :
    (writeSrField lo v sr).getLsbD j = if lo ≤ j ∧ j < lo + n then v.getLsbD (j - lo) else sr.getLsbD j := by
  by_cases h1 : lo ≤ j
  · by_cases h2 : j < lo + n
    · have h3 : j - lo < n := by omega
      have h4 : ¬ j < lo := by omega
      simp [writeSrField, hj, h1, h2, h3, h4]
    · have h3 : ¬ j - lo < n := by omega
      have h5 : n ≤ j - lo := by omega
      simp [writeSrField, hj, h1, h2, h3, BitVec.getLsbD_of_ge v _ h5]
  · have h4 : j < lo := by omega
    simp [writeSrField, hj, h1, h4]

/-- The condition flags. -/
def IsCondition (f : Flag) : Prop := flagBit f < 5

/-- A condition flag's write leaves the supervisor byte and the unused bits alone. -/
theorem beyondFlags_writeFlag {f : Flag} (hf : IsCondition f) (b : Bool) (sr : Word) :
    beyondFlags (writeFlag f b sr) = beyondFlags sr := by
  unfold IsCondition at hf
  apply BitVec.eq_of_getLsbD_eq
  intro i hi
  have hne : 5 + i ≠ flagBit f := by omega
  simp only [beyondFlags, BitVec.getLsbD_extractLsb', hi, decide_true, Bool.true_and,
    getLsbD_writeFlag f b sr (show 5 + i < 16 by omega), if_neg hne]

/-- With no pairs listed, `abcd_v` is its default (R166). -/
@[simp] theorem abcdV_nil (r rr : Byte) : abcdV [] r rr = abcdVDefault r rr := by simp [abcdV]

/-- The default, as R166 says it: bit 7 of `r` is 0 and bit 7 of `rr` is 1. -/
theorem abcdVDefault_eq_true (r rr : Byte) : abcdVDefault r rr = true ↔ r.getLsbD 7 = false ∧ rr.getLsbD 7 = true := by
  simp [abcdVDefault]

section CcAbcd
variable (v : Byte → Byte → Bool) (r bc rr : Byte) (sr : Word)

/-- C receives the decimal carry-out (41_abcd.md R165). -/
@[simp] theorem readFlag_c_ccAbcd : readFlag .c (ccAbcd v r bc rr sr) = abcdCarry r bc rr := by
  simp only [ccAbcd]; split <;> simp

/-- X receives the same (R165). -/
@[simp] theorem readFlag_x_ccAbcd : readFlag .x (ccAbcd v r bc rr sr) = abcdCarry r bc rr := by
  simp only [ccAbcd]; split <;> simp

/-- V receives the argument `abcd_v` (R166). -/
@[simp] theorem readFlag_v_ccAbcd : readFlag .v (ccAbcd v r bc rr sr) = v r rr := by
  simp only [ccAbcd]; split <;> simp

/-- Z stays 1 only if it was and the result is zero (R167). -/
@[simp] theorem readFlag_z_ccAbcd :
    readFlag .z (ccAbcd v r bc rr sr) = (readFlag .z sr && decide (rr = 0)) := by
  simp only [ccAbcd]
  by_cases h : rr = 0
  · rw [if_neg (not_not.mpr h)]; simp [h]
  · rw [if_pos h, decide_eq_false h]; simp

/-- N receives the top bit of the result (R168). -/
@[simp] theorem readFlag_n_ccAbcd : readFlag .n (ccAbcd v r bc rr sr) = rr.getLsbD 7 := by
  simp only [ccAbcd]; split <;> simp

/-- Every other bit is kept (R169). -/
@[simp] theorem beyondFlags_ccAbcd : beyondFlags (ccAbcd v r bc rr sr) = beyondFlags sr := by
  have hc : ∀ f ∈ [Flag.c, .v, .z, .n, .x], IsCondition f := by unfold IsCondition; decide
  simp only [ccAbcd]
  split <;> simp only [beyondFlags_writeFlag, hc, List.mem_cons, true_or, or_true]

end CcAbcd

end Sys2Proof.Machine
end

