-- ==== Sys2Proof/Laws/Abcd.lean ====
section
/-! SUPPORT. Everything the two meanings can do, said once: the register form always completes; the memory form, while
the MMU is `READY`, completes when its draws are granted and otherwise ends in `AllocFailure`. -/

namespace Sys2Proof.Machine

section
variable {s : State} {st : Store} (ry rx : RegNum)

theorem sourceAddress_eq (s : State) : sourceAddress ry s = s.aReg ry - 1 := by simp [sourceAddress]

/-- Where the memory form stores (41_abcd.md R171, corner case (a) for one register twice). -/
theorem destAddress_eq (s : State) : destAddress ry rx s = if rx = ry then s.aReg ry - 2 else s.aReg rx - 1 := by
  simp only [destAddress, aReg_preDecrement, if_true]
  by_cases h : rx = ry
  · subst h; simp only [if_true]; rw [BitVec.sub_sub]; rfl
  · simp [h]

/-- The flags after an ABCD. -/
theorem flag_setAbcdFlags (s : State) (f : Flag) (dst src : Byte) (x : Bool) :
    (s.setAbcdFlags dst src x).flag f =
      readFlag f (ccAbcd (abcdV s.abcdVDiffers) (abcdCore dst src x).1 (abcdCore dst src x).2.1 (abcdCore dst src x).2.2
        s.sr) := rfl

/-- Writing the low byte of a register keeps its upper 24 bits (10_state.md R24). -/
theorem writeByteView_low (v : Long) (x : Byte) : writeByteView 3 x v = v.extractLsb' 8 24 ++ x := by
  apply BitVec.eq_of_getLsbD_eq
  intro j hj
  rw [writeByteView, getLsbD_writeBits _ _ _ hj]
  simp only [BitVec.getLsbD_append, BitVec.getLsbD_extractLsb']
  interval_cases j <;> simp [byteViewLow]

/-- The memory form with its draws granted. -/
theorem execAbcdMem_granted (hm : s.mmu = .ready st)
    (hg : s.granted (st.drawsForAll [sourceAddress ry s, destAddress ry rx s])) :
    exec (.abcdMem ry rx) s = .next
      ((((preDecrement rx (preDecrement ry s)).dropDraws
          (st.drawsForAll [sourceAddress ry s, destAddress ry rx s])).setMmu
        (.ready ((st.touchAll [sourceAddress ry s, destAddress ry rx s]).setByte (destAddress ry rx s)
          (abcdResult (s.byteAt (destAddress ry rx s)) (s.byteAt (sourceAddress ry s)) (s.flag .x))))).setAbcdFlags
        (s.byteAt (destAddress ry rx s)) (s.byteAt (sourceAddress ry s)) (s.flag .x)) := by
  rw [drawsForAll_cons, drawsForAll_cons, drawsForAll_nil, Nat.add_zero, granted_add] at hg
  obtain ⟨hg1, hg2⟩ := hg
  set sa := sourceAddress ry s with hsa
  set da := destAddress ry rx s with hda
  have e1 : readPreDecremented ry s =
      .next (((preDecrement ry s).dropDraws (st.drawsFor sa)).setMmu (.ready (st.touch sa)), s.byteAt sa) := by
    rw [readPreDecremented, show (preDecrement ry s).aReg ry = sa from rfl,
      readByte_granted (s := preDecrement ry s) (st := st) hm (fun k hk => hg1 k hk)]
    simp
  set s1 := ((preDecrement ry s).dropDraws (st.drawsFor sa)).setMmu (.ready (st.touch sa)) with hs1
  have hda1 : (preDecrement rx s1).aReg rx = da := by rw [hda, destAddress]; simp [hs1]
  have e2 : readPreDecremented rx s1 = .next
      (((preDecrement rx s1).dropDraws ((st.touch sa).drawsFor da)).setMmu (.ready ((st.touch sa).touch da)),
        s.byteAt da) := by
    rw [readPreDecremented, hda1,
      readByte_granted (s := preDecrement rx s1) (st := st.touch sa) rfl (fun k hk => by simpa [hs1] using hg2 k hk)]
    simp [hs1, byteAt_of_ready hm]
  set s2 := ((preDecrement rx s1).dropDraws ((st.touch sa).drawsFor da)).setMmu (.ready ((st.touch sa).touch da))
    with hs2
  have hda2 : s2.aReg rx = da := by rw [← hda1]; rfl
  have e3 : ∀ v, writeByte da v s2 = .next (s2.setMmu (.ready (((st.touch sa).touch da).setByte da v))) := by
    intro v
    rw [writeByte_granted (s := s2) (st := (st.touch sa).touch da) rfl v (by simp)]
    simp
  simp only [exec, execAbcdMem, e1, andThen_next, e2, hda2, e3]
  simp only [hs2, hs1]
  rw [drawsForAll_cons, drawsForAll_cons, drawsForAll_nil, Nat.add_zero, ← dropDraws_dropDraws]
  rfl

/-- The memory form with a draw refused: at the source, one register decremented, or at the destination, both. -/
theorem execAbcdMem_denied (hm : s.mmu = .ready st)
    (hg : ¬ s.granted (st.drawsForAll [sourceAddress ry s, destAddress ry rx s])) :
    ∃ r, exec (.abcdMem ry rx) s = .fault r ∧
      (DeniedAt (sourceAddress ry s) (preDecrement ry s) st (st.drawsFor (sourceAddress ry s)) r ∨
        DeniedAt (destAddress ry rx s) (preDecrement rx (preDecrement ry s)) st
          (st.drawsForAll [sourceAddress ry s, destAddress ry rx s]) r) := by
  set sa := sourceAddress ry s with hsa
  set da := destAddress ry rx s with hda
  rcases readByte_ready (s := preDecrement ry s) hm sa with ⟨hg1, e1⟩ | ⟨r, e1, hd⟩
  · set s1 := ((preDecrement ry s).dropDraws (st.drawsFor sa)).setMmu (.ready (st.touch sa)) with hs1
    have hda1 : (preDecrement rx s1).aReg rx = da := by rw [hda, destAddress]; simp [hs1]
    rcases readByte_ready (s := preDecrement rx s1) (st := st.touch sa) rfl da with ⟨hg2, e2⟩ | ⟨r, e2, hd⟩
    · exfalso
      apply hg
      rw [drawsForAll_cons, drawsForAll_cons, drawsForAll_nil, Nat.add_zero, granted_add]
      exact ⟨fun k hk => hg1 k hk, fun k hk => by simpa [hs1] using hg2 k hk⟩
    · refine ⟨r, ?_, .inr ?_⟩
      · simp only [exec, execAbcdMem, readPreDecremented]
        rw [show (preDecrement ry s).aReg ry = sa from rfl, e1, andThen_next]
        simp only []
        rw [hda1, e2]; rfl
      · rw [drawsForAll_cons, drawsForAll_cons, drawsForAll_nil, Nat.add_zero]
        exact DeniedAt.after (s := preDecrement rx (preDecrement ry s)) (fun k hk => hg1 k hk) (extends_touch st sa) hd
  · refine ⟨r, ?_, .inl hd⟩
    simp only [exec, execAbcdMem, readPreDecremented]
    rw [show (preDecrement ry s).aReg ry = sa from rfl, e1]; rfl

theorem execAbcdMem_uninit (hm : s.mmu = .uninit) : exec (.abcdMem ry rx) s = .refused .mmuNotInitialized := by
  simp only [exec, execAbcdMem, readPreDecremented]
  rw [readByte_uninit (s := preDecrement ry s) hm]; rfl

/-- If the memory form completes, the MMU is `READY` and its draws were granted. -/
theorem execAbcdMem_eq_next {t : State} (h : exec (.abcdMem ry rx) s = .next t) :
    ∃ st, s.mmu = .ready st ∧ s.granted (st.drawsForAll [sourceAddress ry s, destAddress ry rx s]) := by
  cases hm : s.mmu with
  | uninit => rw [execAbcdMem_uninit ry rx hm] at h; cases h
  | ready st =>
    refine ⟨st, rfl, ?_⟩
    by_contra hg
    obtain ⟨r, e, _⟩ := execAbcdMem_denied ry rx hm hg
    rw [e] at h; cases h

end

end Sys2Proof.Machine
end

