-- ==== Sys2Proof/Laws/PerInstr.lean ====
section
/-! SUPPORT. Statements about every instruction as syntax, one lemma per constructor: the encoder, written from the bit
table of 30_encoding.md R113, gives the slot the formula of R119 gives. -/

namespace Sys2Proof.Laws.EncodesItsSlot

/-- The opcode word of an instruction is its slot by R119, and the instruction is well formed. -/
def Statement (i : Instr) : Prop := (encodeWord i).toNat = i.slot ∧ i.wellFormed = true

theorem abcdReg (ry rx : RegNum) : Statement (.abcdReg ry rx) := by
  unfold Statement; revert ry rx; decide

theorem abcdMem (ry rx : RegNum) : Statement (.abcdMem ry rx) := by
  unfold Statement; revert ry rx; decide

end Sys2Proof.Laws.EncodesItsSlot
end

