-- ==== Sys2Proof/Laws/Step.lean ====
section
/-! SUPPORT. Everything the fetch and the step can do, said once. -/

namespace Sys2Proof.Machine

section
variable {s t : State} {st : Store}

/-- The state a fetch leaves: the draws its two bytes take are taken, their pages are there, IR is latched. -/
def fetched (s : State) (st : Store) : State :=
  ((s.dropDraws (st.drawsForAll (span s.pc 2))).setMmu (.ready (st.touchAll (span s.pc 2)))).setIr
    (s.byteAt s.pc ++ s.byteAt (s.pc + 1))

theorem fetched_mmu (s : State) (st : Store) : (fetched s st).mmu = .ready (st.touchAll (span s.pc 2)) := rfl

@[simp] theorem fetched_d (s : State) (st : Store) : (fetched s st).d = s.d := by simp [fetched]
@[simp] theorem fetched_a (s : State) (st : Store) : (fetched s st).a = s.a := by simp [fetched]
@[simp] theorem fetched_pc (s : State) (st : Store) : (fetched s st).pc = s.pc := by simp [fetched]
@[simp] theorem fetched_sr (s : State) (st : Store) : (fetched s st).sr = s.sr := by simp [fetched]
@[simp] theorem fetched_ctrl (s : State) (st : Store) : (fetched s st).ctrl = s.ctrl := by simp [fetched]
@[simp] theorem fetched_ir (s : State) (st : Store) : (fetched s st).ir = s.byteAt s.pc ++ s.byteAt (s.pc + 1) := by
  simp [fetched]

@[simp] theorem fetched_abcdVDiffers (s : State) (st : Store) : (fetched s st).abcdVDiffers = s.abcdVDiffers := by
  simp [fetched]

@[simp] theorem drawAt_fetched (s : State) (st : Store) (k : Nat) :
    (fetched s st).drawAt k = s.drawAt (st.drawsForAll (span s.pc 2) + k) := by
  simp only [fetched, drawAt_setIr, drawAt_setMmu, drawAt_dropDraws]

theorem fetched_wf (hm : s.mmu = .ready st) (hw : s.mmu.wf) : (fetched s st).mmu.wf := by
  rw [hm] at hw
  exact wf_touchAll hw _

/-- A fetch changes no byte. -/
theorem byteAt_fetched (hm : s.mmu = .ready st) (k : Long) : (fetched s st).byteAt k = s.byteAt k := by
  rw [byteAt_of_ready (fetched_mmu s st), byteAt_touchAll, byteAt_of_ready hm]

/-- A fetch changes no register but IR. -/
theorem fetched_looksLike (hm : s.mmu = .ready st) : s.looksLike { fetched s st with ir := s.ir } :=
  ⟨by simp [State.sameRegisters, fetched], fun k => by
    have h : ({ fetched s st with ir := s.ir } : State).mmu = .ready (st.touchAll (span s.pc 2)) := rfl
    rw [byteAt_of_ready h, byteAt_touchAll, byteAt_of_ready hm], by simp [fetched]⟩

/-- Everything a fetch can do while the MMU is `READY` (40_fetch_dispatch.md R141). -/
theorem ifetch_ready (hm : s.mmu = .ready st) :
    (s.granted (st.drawsForAll (span s.pc 2)) ∧
      ifetch s = .next (fetched s st, s.byteAt s.pc ++ s.byteAt (s.pc + 1))) ∨
    ∃ b ∈ span s.pc 2, ∃ r, ifetch s = .fault r ∧ DeniedAt b s st (st.drawsForAll (span s.pc 2)) r := by
  rcases readWord_ready hm s.pc with ⟨hg, he⟩ | ⟨b, hb, r, he, hd⟩
  · exact .inl ⟨hg, by rw [ifetch, he]; rfl⟩
  · exact .inr ⟨b, hb, r, by rw [ifetch, he]; rfl, hd⟩

theorem ifetch_uninit (hm : s.mmu = .uninit) : ifetch s = .refused .mmuNotInitialized := by
  rw [ifetch, readWord_uninit hm]; rfl

/-- Both instructions are two bytes long (30_encoding.md R111). -/
theorem length_eq_two (i : Instr) : i.length = 2 := by cases i <;> rfl

/-- Everything a step can do while the MMU is `READY`. -/
theorem step_ready (hm : s.mmu = .ready st) :
    (s.granted (st.drawsForAll (span s.pc 2)) ∧
      ((decodeWord (s.byteAt s.pc ++ s.byteAt (s.pc + 1)) = none ∧
          step s = .fault (.noInstruction (s.byteAt s.pc ++ s.byteAt (s.pc + 1)) (fetched s st))) ∨
        ∃ i, decodeWord (s.byteAt s.pc ++ s.byteAt (s.pc + 1)) = some i ∧
          step s = andThen (exec i (fetched s st)) fun t => .next (advancePc 2 t))) ∨
    ∃ b ∈ span s.pc 2, ∃ r, step s = .fault r ∧ DeniedAt b s st (st.drawsForAll (span s.pc 2)) r := by
  rcases ifetch_ready hm with ⟨hg, he⟩ | ⟨b, hb, r, he, hd⟩
  · refine .inl ⟨hg, ?_⟩
    rw [step, he, andThen_next]
    simp only [dispatchOpcode]
    cases h : decodeWord (s.byteAt s.pc ++ s.byteAt (s.pc + 1)) with
    | none => exact .inl ⟨rfl, rfl⟩
    | some i => exact .inr ⟨i, rfl, by simp only [length_eq_two]⟩
  · exact .inr ⟨b, hb, r, by rw [step, he]; rfl, hd⟩

theorem step_uninit (hm : s.mmu = .uninit) : step s = .refused .mmuNotInitialized := by
  rw [step, ifetch_uninit hm]; rfl

/-- A step that completes ran the instruction at PC. -/
theorem step_eq_next (h : step s = .next t) :
    ∃ st i u, s.mmu = .ready st ∧ s.granted (st.drawsForAll (span s.pc 2)) ∧
      decodeWord (s.byteAt s.pc ++ s.byteAt (s.pc + 1)) = some i ∧ exec i (fetched s st) = .next u ∧
      t = advancePc 2 u := by
  cases hm : s.mmu with
  | uninit => rw [step_uninit hm] at h; cases h
  | ready st =>
    rcases step_ready hm with ⟨hg, ⟨_, he⟩ | ⟨i, hi, he⟩⟩ | ⟨_, _, _, he, _⟩
    · rw [he] at h; cases h
    · rw [he, andThen_eq_next] at h
      obtain ⟨u, hu, hv⟩ := h
      exact ⟨st, i, u, rfl, hg, hi, hu, by simpa using hv.symm⟩
    · rw [he] at h; cases h

end

end Sys2Proof.Machine
end

