-- ==== Sys2Proof/Tests/Slice0.lean ====
section
/-! SUPPORT. The model's own tests. Every expected value is the spec's: a worked example of the source or a derived
vector (95_test_vectors.md, the section is named), or a field layout of 30_encoding.md written out bit by bit. The second
part has, for each statement with hypotheses, a concrete state and operands that meet all of them. -/

namespace Sys2Proof.Machine.Tests

/-- What an outcome leaves, if it completes. -/
def nextOf {α : Type} : Result α → Option α
  | .next x => some x
  | .fault _ => none
  | .refused _ => none

/-- The fault of an outcome, if it has one. -/
def faultOf {α : Type} : Result α → Option Fault
  | .next _ => none
  | .fault r => some r
  | .refused _ => none

theorem exists_next {α : Type} {o : Result α} (h : (nextOf o).isSome = true) : ∃ x, o = .next x := by
  cases o with
  | next x => exact ⟨x, rfl⟩
  | fault r => cases h
  | refused r => cases h

theorem exists_next_pair {α β : Type} {o : Result (α × β)} (h : (nextOf o).isSome = true) : ∃ x y, o = .next (x, y) := by
  obtain ⟨⟨x, y⟩, h⟩ := exists_next h
  exact ⟨x, y, h⟩

theorem exists_fault {α : Type} {o : Result α} (h : (faultOf o).isSome = true) : ∃ r, o = .fault r := by
  cases o with
  | next x => cases h
  | fault r => exact ⟨r, rfl⟩
  | refused r => cases h

/-- After reset and `mmu_initialize` (70_reset_and_hazards.md R241), with bytes, a status word and coming draws. -/
def world (mem : Memory) (sr : Word) (draws : List Bool) : State :=
  { State.reset with mmu := .ready { tables := [0], pages := [(0, 0)], mem := mem }, sr := sr, draws := draws }

/-- The opcode `ABCD D0,D1` at 0. -/
def regForm : State := (((world [(0, 0xC3#8)] 0x0004#16 []).setD 0 0x46#32).setD 1 0xABCDEF28#32)

/-- The source's example of the memory form, its opcode at 0. -/
def memForm : State :=
  ((world [(0, 0xC3#8), (1, 0x08#8), (0x0F, 0x46#8), (0x1F, 0x28#8)] 0x0004#16 []).setA 0 0x10#32).setA 1 0x20#32

/-! ## WellFormed: a term for each check that the check refuses (30_encoding.md R122, R115) -/

theorem test_wellformed_line : lineIsAbcd 0xD100#16 = false ∧ slotPresent 0xD100#16 = false := by decide
theorem test_wellformed_bit8 : bit8IsSet 0xC000#16 = false ∧ slotPresent 0xC000#16 = false := by decide
theorem test_wellformed_bits7to4 : bits7To4AreZero 0xC110#16 = false ∧ slotPresent 0xC110#16 = false := by decide
theorem test_wellformed_instructions :
    (Instr.abcdReg 7 7).wellFormed = true ∧ (Instr.abcdMem 6 7).wellFormed = true := by decide

/-! ## Decoding: words written out bit by bit (30_encoding.md R113) -/

/-- `1100 rx 1 0000 0 ry` with rx = 5, ry = 3. -/
theorem test_decode_reg : decodeWord (0b1100#4 ++ 0b101#3 ++ 1#1 ++ 0b0000#4 ++ 0#1 ++ 0b011#3) = some (.abcdReg 3 5) := by
  decide
/-- `1100 rx 1 0000 1 ry` with rx = 1, ry = 6. -/
theorem test_decode_mem : decodeWord (0b1100#4 ++ 0b001#3 ++ 1#1 ++ 0b0000#4 ++ 1#1 ++ 0b110#3) = some (.abcdMem 6 1) := by
  decide
/-- R142's examples and section 2.7. -/
theorem test_lookup :
    (lookup 0xCB05#16).map Entry.mnemonic = some "ABCD D5,D5" ∧
    (lookup 0xCF0E#16).map Entry.mnemonic = some "ABCD -(A6),-(A7)" ∧
    lookup 0x4E71#16 = none ∧ lookup 0xC1F0#16 = none ∧ lookup 0xFFFF#16 = none := by decide
/-- Bytes are read most significant first, what follows is left, and an opcode needs two (R110). -/
theorem test_decode_bytes :
    decode [0xC3#8, 0x08#8, 0x77#8] = .ok (.abcdMem 0 1, [0x77#8]) ∧ decode [0xC3#8] = .error .truncated := ⟨rfl, rfl⟩
theorem test_table_word : decodeTableWord 16 0xC503 = some (.abcdReg 3 2) ∧ decodeTableWord 16 0xC110 = none := by decide

/-! ## The adder and the flags (95_test_vectors.md 1.5, 2.1) -/

theorem test_core_needs_nine_bits : abcdCore 0x10 0x91 false = (0xA1, 0x00, 0x01) := by decide
theorem test_core_invalid_digits : abcdCore 0xC3 0x09 false = (0xCC, 0x00, 0x32) := by decide
/-- 99 + 99: C, X, N and V set, Z cleared. -/
theorem test_flags_largest : ccAbcd (abcdV []) 0x32 0x88 0x98 0x0004 = 0x001B#16 := by decide
/-- 99 + 1: Z kept, the unused bits kept (2.2, the fourth row). -/
theorem test_flags_sticky_zero : ccAbcd (abcdV []) 0x9A 0x00 0x00 0x00E4 = 0x00F5#16 := by decide

/-! ## One step (2.2, 2.3, 2.8, 2.9) -/

/-- 2.2, first row. -/
theorem test_step_reg :
    (nextOf (step regForm)).map (fun t => (t.dReg 0, t.dReg 1, t.sr, t.pc, t.ir)) =
      some (0x46#32, 0xABCDEF74#32, 0#16, 2#32, 0xC300#16) := by decide
/-- 2.2, `ABCD D5,D5`: one register as both operands, the supervisor byte kept. -/
theorem test_step_reg_same :
    (nextOf (step (((world [] 0x2704#16 []).setD 5 0xFFFFFF19#32).withFetchWord 16 0xCB05))).map
      (fun t => (t.dReg 5, t.sr)) = some (0xFFFFFF38#32, 0x2700#16) := by decide
/-- Another `abcd_v`, 1 where the default is 0, changes V in the same step and nothing else (95_test_vectors.md, head). -/
theorem test_step_other_abcd_v :
    (nextOf (step { regForm with abcdVDiffers := [(0x6E, 0x74)] })).map (fun t => (t.dReg 1, t.sr)) =
      some (0xABCDEF74#32, 0x0002#16) := by decide
/-- 1.6, 2.3 first row. -/
theorem test_step_mem :
    (nextOf (step memForm)).map (fun t => (t.aReg 0, t.aReg 1, t.byteAt 0x1F#32, t.byteAt 0x0F#32, t.sr, t.pc)) =
      some (0x0F#32, 0x1F#32, 0x74#8, 0x46#8, 0#16, 2#32) := by decide
/-- 2.3, `ABCD -(A2),-(A2)`: source at 0x101, destination at 0x100. -/
theorem test_step_mem_same :
    (nextOf (step (((world [(0x100, 0x15#8), (0x101, 0x27#8)] 0x0004#16 []).setA 2 0x102#32).withFetchWord 16 0xC50A))).map
      (fun t => (t.aReg 2, t.byteAt 0x100#32, t.byteAt 0x101#32)) = some (0x100#32, 0x42#8, 0x27#8) := by decide
/-- 2.8: the fetch wraps from the last byte to the first; its page takes a table and a page. -/
theorem test_step_wraps :
    (nextOf (step { world [(0xFFFFFFFF, 0xC3#8)] 0x0004#16 [] with
        pc := 0xFFFFFFFF#32
        mmu := .ready { tables := [0, 1023], pages := [(0, 0), (1023, 1023)], mem := [(0xFFFFFFFF, 0xC3#8)] } })).map
      (fun t => (t.pc, t.ir)) = some (1#32, 0xC300#16) := by decide
/-- 2.9: an absent opcode leaves PC, and IR holds it. -/
theorem test_step_absent :
    (faultOf (step (world [(0, 0x4E#8), (1, 0x71#8)] 0 []))).map
      (fun r => match r with | .noInstruction w t => (w, t.pc, t.ir) | .allocFailure _ _ => (0, 1, 0)) =
      some (0x4E71#16, 0#32, 0x4E71#16) := by decide
theorem test_withFetchWord_from_reset :
    (nextOf (step (State.reset.withFetchWord 16 0xC308))).map (fun t => (t.ir, t.aReg 0, t.aReg 1)) =
      some (0xC308#16, 0xFFFFFFFF#32, 0xFFFFFFFF#32) := by decide

/-! ## Views, flags, memory (2.4, 2.5, 2.6) -/

theorem test_views :
    byteView 0 0x11223344#32 = 0x11#8 ∧ wordView 1 0x11223344#32 = 0x3344#16 ∧
    writeByteView 3 0xAA#8 0x11223344#32 = 0x112233AA#32 ∧ writeWordView 0 0xBEEF#16 0x112233AA#32 = 0xBEEF33AA#32 := by
  decide
theorem test_status_fields :
    writeFlag .z false 0xFFFF#16 = 0xFFFB#16 ∧ writeFlag .s true 0#16 = 0x2000#16 ∧ writeMask 7#3 0x2000#16 = 0x2700#16 := by
  decide
theorem test_split : splitAddress 0x12345678#32 = { dir := 72, tbl := 837, offset := 0x678 } := by decide
/-- 2.5: from a fresh store `read_byte(0x00400000)` takes a table and a page. -/
theorem test_translate_allocates :
    (nextOf (readByte 0x00400000#32 (world [] 0 [true, true]))).map (fun p => (p.1.mmu, p.1.draws, p.2)) =
      some (.ready { tables := [0, 1], pages := [(0, 0), (1, 0)], mem := [] }, [], 0#8) := by decide
/-- 2.6: a long write that straddles two directory entries. -/
theorem test_write_long_straddles :
    (nextOf (writeLong 0x003FFFFE#32 0x01020304#32 (world [] 0 [true, true, true]))).map
      (fun t => (t.byteAt 0x003FFFFF#32, t.byteAt 0x00400000#32)) = some (0x02#8, 0x03#8) := by decide
/-- 1.3: the source's byte order. -/
theorem test_write_word_order :
    (nextOf (writeWord 0 0xDEAD#16 (world [] 0 []))).map (fun t => (t.byteAt 0, t.byteAt 1)) = some (0xDE#8, 0xAD#8) := by
  decide
/-- R80, D27: a straddling write whose second page is refused stores nothing. -/
theorem test_write_all_or_nothing :
    (faultOf (writeWord 0xFFF#32 0xBEEF#16 (world [] 0 [false]))).map (fun r => r.final.byteAt 0xFFF#32) =
      some 0#8 := by decide
/-- 1.5: the chain of R172 on 9999 + 0001. -/
theorem test_chain : abcdChain (abcdV []) [(0x99, 0x01), (0x99, 0x00)] 0x0004#16 = ([0x00, 0x00], 0x0015#16) := by decide

/-! ## Witnesses: the hypotheses of the statements can be met -/

theorem wf_world : (Store.mk [0] [(0, 0)] [(0, 0xC3#8)]).wf := by
  refine ⟨by simp [Store.presence], by simp [Store.listed], by decide, fun c hc => ?_⟩
  have h := List.mem_singleton.mp hc
  rw [h]
  refine ⟨Nat.two_pow_pos 32, ?_⟩
  decide

theorem granted_of {s : State} {n : Nat} (h : (List.range n).all (fun k => s.drawAt k) = true) : s.granted n :=
  fun k hk => List.all_eq_true.mp h k (List.mem_range.mpr hk)

theorem denied_of {s : State} {n k : Nat} (hk : k < n) (h : s.drawAt k = false) : ¬ s.granted n := fun hg => by
  rw [hg k hk] at h; cases h

theorem witness_DecodedOpcodeEncodesBack : ∃ w i, decodeWord w = some i := ⟨0xCF0F#16, .abcdMem 7 7, by decide⟩

/-- Each clause of the lookup at the ends of its range. -/
theorem witness_LookupFollowsTheMasks :
    0xC100#16 &&& 0xF1F8#16 = 0xC100#16 ∧ 0xCF07#16 &&& 0xF1F8#16 = 0xC100#16 ∧
    0xC108#16 &&& 0xF1F8#16 = 0xC108#16 ∧ 0xCF0F#16 &&& 0xF1F8#16 = 0xC108#16 ∧
    0xC110#16 &&& 0xF1F8#16 ≠ 0xC100#16 ∧ 0xC110#16 &&& 0xF1F8#16 ≠ 0xC108#16 := by decide

/-- Each clause of the bit statements: a bit in the field and one out of it, at the ends. -/
theorem witness_ViewWriteReplacesOnlyItsBits : ∃ j k : Nat, j < 32 ∧ k < 32 ∧ (24 - 8 * 1 ≤ j ∧ j ≤ 31 - 8 * 1) ∧ k > 31 - 8 * 1 :=
  ⟨16, 31, by decide⟩
theorem witness_FlagWritePreservesOtherBits :
    ∃ j k l : Nat, j < 16 ∧ j ≠ flagBit .x ∧ k < 16 ∧ ¬(8 ≤ k ∧ k ≤ 10) ∧ l < 14 := ⟨15, 11, 13, by decide⟩
theorem witness_AccessorsNeverFail : ∃ r : Request, r.isPlainAccessor = true := ⟨.setCtrl .msp 5, rfl⟩
theorem witness_HostWritesGeneralRegister : ∃ g h : GeneralReg, h ≠ g := ⟨.d 7, .a 7, by decide⟩
/-- A bit in and a bit out of a flag, the mask and the trace field, at their ends. -/
theorem witness_HostWritesPcAndStatus :
    (4 < 16 ∧ 4 = flagBit .x ∧ 5 ≠ flagBit .x) ∧ ((8 ≤ 8 ∧ 8 ≤ 10) ∧ ¬(8 ≤ 11 ∧ 11 ≤ 10)) ∧ (14 ≤ 15 ∧ 15 < 16 ∧ ¬14 ≤ 13) := by
  decide
theorem witness_ControlRegistersAreIndependentCells :
    ∃ c e : CtrlName, (∀ n, c = .other n → Config.hasOtherCtrl n = true) ∧ e ≠ c :=
  ⟨.msp, .other 3, (fun n h => by cases h), by decide⟩

theorem witness_InitializeMakesTheFirstPage :
    (∃ s : State, s.mmu = .uninit ∧ s.granted 3) ∧ ∃ (s : State) (st : Store), s.mmu = .ready st :=
  ⟨⟨{ State.reset with draws := [true, true, true] }, rfl, granted_of (by decide)⟩, ⟨regForm, _, rfl⟩⟩
/-- The first and the last allocation refused; the retry granted. -/
theorem witness_FailedInitializeLeavesUninit :
    (∃ (s : State) (k : Nat), s.mmu = .uninit ∧ k < 3 ∧ s.granted k ∧ s.drawAt k = false ∧ k = 0) ∧
    ∃ (s t : State) (k : Nat), s.mmu = .uninit ∧ k < 3 ∧ s.granted k ∧ s.drawAt k = false ∧ k = 2 ∧
      t = s.dropDraws 3 ∧ t.granted 3 :=
  ⟨⟨{ State.reset with draws := [false] }, 0, rfl, by decide, granted_of (by decide), by decide, rfl⟩,
    ⟨{ State.reset with draws := [true, true, false, true, true, true] }, _, 2, rfl, by decide, granted_of (by decide),
      by decide, rfl, rfl, granted_of (by decide)⟩⟩
theorem witness_DestroyReleasesEverything :
    ∃ (s : State) (u : State), mmuInitialize (mmuDestroy s) = .next u :=
  ⟨{ regForm with draws := [true, true, true] }, exists_next (by decide)⟩
theorem witness_NothingReachesMemoryBeforeInitialize : ∃ s : State, s.mmu = .uninit := ⟨State.reset, rfl⟩

theorem witness_TranslateIsStableAndDistinct :
    (∃ (a : Long) (s t : State) (l : Location), translate a s = .next (t, l)) ∧
    (pageOf 0x12345678#32 = pageOf 0x12345000#32) ∧ pageOf 0x00000FFF#32 ≠ pageOf 0x00001000#32 ∧
    ∃ a b : Long, splitAddress a = splitAddress b :=
  ⟨⟨0xFFFFFFFF#32, world [] 0 [true, true], exists_next_pair (by decide)⟩, by decide, by decide, ⟨0, 0, rfl⟩⟩

/-- A state in which reads and writes of each width that wrap past the last address complete. -/
def wrapping : State := world [] 0 [true, true]

theorem witness_AccessTakesExactlyItsDraws :
    ∃ (s : State) (st : Store), s.mmu = .ready st ∧ s.granted (st.drawsForAll (span 0xFFFFFFFE#32 4)) :=
  ⟨wrapping, _, rfl, granted_of (by decide)⟩
theorem witness_Reads :
    (∃ t v, readByte 0xFFFFFFFF#32 wrapping = .next (t, v)) ∧ (∃ t v, readWord 0xFFFFFFFF#32 wrapping = .next (t, v)) ∧
    ∃ t v, readLong 0xFFFFFFFD#32 wrapping = .next (t, v) :=
  ⟨exists_next_pair (by decide), exists_next_pair (by decide), exists_next_pair (by decide)⟩
theorem witness_ReadsAreBigEndian : ∃ s a, ∃ t v, readLong a s = .next (t, v) := ⟨_, _, witness_Reads.2.2⟩
theorem witness_ReadsAreIdempotent : ∃ s a, ∃ t v, readWord a s = .next (t, v) := ⟨_, _, witness_Reads.2.1⟩
theorem witness_Writes :
    (∃ t, writeByte 0xFFFFFFFF#32 0xFF#8 wrapping = .next t) ∧ (∃ t, writeWord 0xFFFFFFFF#32 0xBEEF#16 wrapping = .next t) ∧
    ∃ t, writeLong 0xFFFFFFFD#32 0xA1B2C3D4#32 wrapping = .next t :=
  ⟨exists_next (by decide), exists_next (by decide), exists_next (by decide)⟩
theorem witness_WritesStoreTheirBytes : ∃ s a v, ∃ t, writeWord a v s = .next t := ⟨_, _, _, witness_Writes.2.1⟩
theorem witness_WriteThenReadReturnsTheValue : ∃ s a v, ∃ t, writeByte a v s = .next t := ⟨_, _, _, witness_Writes.1⟩
theorem witness_NarrowReadsSeeAWideWrite : ∃ s a v, ∃ t, writeLong a v s = .next t := ⟨_, _, _, witness_Writes.2.2⟩
/-- A read and a write of each width that fault. -/
theorem witness_FailedAccessWritesNothing :
    (∃ r, readByte 0x00001000#32 (world [] 0 [false]) = .fault r) ∧
    (∃ r, writeByte 0xFFFFFFFF#32 1 (world [] 0 [true, false]) = .fault r) ∧
    (∃ r, readWord 0xFFFFFFFF#32 (world [] 0 [false]) = .fault r) ∧
    (∃ r, writeWord 0x00000FFF#32 1 (world [] 0 [false]) = .fault r) ∧
    (∃ r, readLong 0x00000FFE#32 (world [] 0 [false]) = .fault r) ∧
    ∃ r, writeLong 0x003FFFFE#32 1 (world [] 0 [true, true, false]) = .fault r :=
  ⟨exists_fault (by decide), exists_fault (by decide), exists_fault (by decide), exists_fault (by decide),
    exists_fault (by decide), exists_fault (by decide)⟩
/-- A transaction that completes, and one that faults after it has allocated a table. -/
theorem witness_OnlyDestroyAndResetRemovePages :
    (∃ (r : Request) (s t : State) (st : Store), s.mmu = .ready st ∧ r ≠ .mmuDestroy ∧ r ≠ .reset ∧
      ∃ v, transact r s = .next (t, v)) ∧
    ∃ (r : Request) (s t : State) (st : Store), s.mmu = .ready st ∧ r ≠ .mmuDestroy ∧ r ≠ .reset ∧
      ∃ f, transact r s = .fault f ∧ t = f.final := by
  obtain ⟨t, v, h⟩ := exists_next_pair (o := transact (.writeLong 0xFFFFFFFE#32 1) wrapping) (by decide)
  obtain ⟨f, g⟩ := exists_fault (o := transact (.readByte 0x00400000#32) (world [] 0 [true, false])) (by decide)
  exact ⟨⟨_, _, t, _, rfl, by decide, by decide, v, h⟩, ⟨_, _, f.final, _, rfl, by decide, by decide, f, g, rfl⟩⟩
theorem witness_FetchSeesTheLatestStore : ∃ (s t : State) (a : Long) (w : Word), writeWord a w s = .next t := by
  obtain ⟨t, h⟩ := witness_Writes.2.1
  exact ⟨_, t, _, _, h⟩

theorem witness_DecimalSumOfValidOperands : validBcd 0x99#8 = true ∧ validBcd 0x00#8 = true := by decide
theorem witness_ChainAddsDecimalNumbers :
    (∀ p ∈ [(0x99#8, 0x99#8), (0x99#8, 0x00#8)], validBcd p.1 = true ∧ validBcd p.2 = true) ∧
      [(0x99#8, 0x99#8), (0x99#8, 0x00#8)] ≠ [] := by
  refine ⟨fun p hp => ?_, by simp⟩
  rcases List.mem_pair.mp hp with rfl | rfl <;> decide

/-- Both clauses about Z: a result that is not zero, and one that is. -/
theorem witness_RegisterFormResult :
    (∃ (ry rx : RegNum) (s : State) (r bc rr : Byte),
      abcdCore ((s.dReg rx).extractLsb' 0 8) ((s.dReg ry).extractLsb' 0 8) (s.flag .x) = (r, bc, rr) ∧ rr ≠ 0) ∧
    ∃ (ry rx : RegNum) (s : State) (r bc rr : Byte),
      abcdCore ((s.dReg rx).extractLsb' 0 8) ((s.dReg ry).extractLsb' 0 8) (s.flag .x) = (r, bc, rr) ∧ rr = 0 :=
  ⟨⟨0, 1, regForm, 0x6E, 0x00, 0x74, by decide⟩, ⟨6, 7, regForm, 0, 0, 0, by decide⟩⟩
/-- Both forms. -/
theorem witness_FlagsFollowTheRules :
    (∃ (ry rx : RegNum) (s : State) (r bc rr : Byte), (∃ t, exec (.abcdReg ry rx) s = .next t) ∧
      abcdCore (s.dByte rx) (s.dByte ry) (s.flag .x) = (r, bc, rr) ∧ rr ≠ 0) ∧
    ∃ (ry rx : RegNum) (s : State) (r bc rr : Byte), (∃ t, exec (.abcdMem ry rx) s = .next t) ∧
      abcdCore (s.byteAt (destAddress ry rx s)) (s.byteAt (sourceAddress ry s)) (s.flag .x) = (r, bc, rr) ∧ rr = 0 :=
  ⟨⟨0, 1, regForm, 0x6E, 0x00, 0x74, ⟨_, rfl⟩, by decide⟩,
    ⟨7, 7, wrapping, 0, 0, 0, exists_next (by decide), by decide⟩⟩
theorem witness_RegisterFormFrame : ∃ (ry rx : RegNum) (s t : State), exec (.abcdReg ry rx) s = .next t :=
  ⟨7, 7, regForm, _, rfl⟩
theorem witness_RegisterFormWorkedExamples :
    ∃ s : State, s.dReg 0 = 0x00000046#32 ∧ s.dReg 1 = 0xABCDEF28#32 ∧ s.dReg 2 = 0x00000091#32 ∧
      s.dReg 3 = 0x00000010#32 ∧ s.dReg 4 = 0x00000090#32 ∧ s.sr = 0x0004#16 ∧ s.abcdVDiffers = [] :=
  ⟨((regForm.setD 2 0x91#32).setD 3 0x10#32).setD 4 0x90#32, by decide⟩

/-- Two registers and one register twice, the second with its address wrapping. -/
theorem witness_MemoryFormResult :
    (∃ (ry rx : RegNum) (s : State) (st : Store) (src dst : Long) (r bc rr : Byte), s.mmu = .ready st ∧ rx ≠ ry ∧
      src = s.aReg ry - 1 ∧ dst = (if rx = ry then s.aReg ry - 2 else s.aReg rx - 1) ∧
      s.granted (st.drawsForAll [src, dst]) ∧ abcdCore (s.byteAt dst) (s.byteAt src) (s.flag .x) = (r, bc, rr) ∧ rr ≠ 0) ∧
    ∃ (ry rx : RegNum) (s : State) (st : Store) (src dst : Long) (r bc rr : Byte), s.mmu = .ready st ∧ rx = ry ∧
      src = s.aReg ry - 1 ∧ dst = (if rx = ry then s.aReg ry - 2 else s.aReg rx - 1) ∧
      s.granted (st.drawsForAll [src, dst]) ∧ abcdCore (s.byteAt dst) (s.byteAt src) (s.flag .x) = (r, bc, rr) ∧ rr = 0 :=
  ⟨⟨0, 1, memForm, _, 0x0F#32, 0x1F#32, 0x6E, 0x00, 0x74, rfl, by decide, by decide, by decide, granted_of (by decide),
      by decide⟩,
    ⟨7, 7, wrapping, _, 0xFFFFFFFF#32, 0xFFFFFFFE#32, 0, 0, 0, rfl, rfl, by decide, by decide, granted_of (by decide),
      by decide⟩⟩
theorem witness_MemoryFormFrame : ∃ (ry rx : RegNum) (s t : State), exec (.abcdMem ry rx) s = .next t :=
  ⟨7, 7, wrapping, exists_next (by decide)⟩
/-- The source refused, and the destination refused after the source was granted. -/
theorem witness_MemoryFormFault :
    (∃ (s : State) (st : Store), s.mmu = .ready st ∧
      ¬ s.granted (st.drawsForAll [sourceAddress 0 s, destAddress 0 1 s])) ∧
    ∃ (s : State) (st : Store), s.mmu = .ready st ∧ s.granted (st.drawsFor (sourceAddress 0 s)) ∧
      ¬ s.granted (st.drawsForAll [sourceAddress 0 s, destAddress 0 1 s]) :=
  ⟨⟨world [] 0 [false], _, rfl, denied_of (k := 0) (by decide) (by decide)⟩,
    ⟨((world [] 0 [false]).setA 0 0x10#32).setA 1 0x1001#32, _, rfl, granted_of (by decide),
      denied_of (k := 0) (by decide) (by decide)⟩⟩
theorem witness_MemoryFormWorkedExample :
    ∃ s : State, s.mmu = .ready { tables := [0], pages := [(0, 0)], mem := [(0x0F, 0x46#8), (0x1F, 0x28#8)] } ∧
      s.aReg 0 = 0x10#32 ∧ s.aReg 1 = 0x20#32 ∧ s.sr = 0x0004#16 ∧ s.abcdVDiffers = [] :=
  ⟨((world [(0x0F, 0x46#8), (0x1F, 0x28#8)] 0x0004#16 []).setA 0 0x10#32).setA 1 0x20#32, by decide⟩
/-- Both forms, the first with the default of `abcd_v`, the second with another. -/
theorem witness_OverflowFollowsTheDefault :
    (∃ (ry rx : RegNum) (s : State) (r bc rr : Byte), (∃ t, exec (.abcdReg ry rx) s = .next t) ∧
      abcdCore (s.dByte rx) (s.dByte ry) (s.flag .x) = (r, bc, rr) ∧ s.abcdVDiffers = []) ∧
    ∃ (ry rx : RegNum) (s : State) (r bc rr : Byte), (∃ t, exec (.abcdMem ry rx) s = .next t) ∧
      abcdCore (s.byteAt (destAddress ry rx s)) (s.byteAt (sourceAddress ry s)) (s.flag .x) = (r, bc, rr) ∧
      s.abcdVDiffers = [(0x6E, 0x74)] :=
  ⟨⟨0, 1, regForm, _, _, _, ⟨_, rfl⟩, rfl, rfl⟩,
    ⟨0, 1, { memForm with abcdVDiffers := [(0x6E, 0x74)] }, _, _, _, exists_next (by decide), rfl, rfl⟩⟩
/-- A transaction that completes and one that faults, the parameter not its default. -/
theorem witness_ParameterIsFixed :
    (∃ (r : Request) (s : State), s.abcdVDiffers = [(0, 0)] ∧ ∃ t v, transact r s = .next (t, v)) ∧
    ∃ (r : Request) (s : State), s.abcdVDiffers = [(0, 0)] ∧ ∃ f, transact r s = .fault f :=
  ⟨⟨.step, { memForm with abcdVDiffers := [(0, 0)] }, rfl, exists_next_pair (by decide)⟩,
    ⟨.readWord 0xFFF#32, { world [] 0 [false] with abcdVDiffers := [(0, 0)] }, rfl, exists_fault (by decide)⟩⟩

/-- Both clauses of the fetch: at an odd address with its draws granted, and over a page border with the page refused. -/
theorem witness_FetchReadsTheWordAtPc :
    (∃ (s : State) (st : Store), s.mmu = .ready st ∧ s.granted (st.drawsForAll (span s.pc 2))) ∧
    ∃ (s : State) (st : Store), s.mmu = .ready st ∧ ¬ s.granted (st.drawsForAll (span s.pc 2)) :=
  ⟨⟨regForm.setPc 0x101#32, _, rfl, granted_of (by decide)⟩,
    ⟨(world [] 0 [false]).setPc 0xFFF#32, _, rfl, denied_of (k := 0) (by decide) (by decide)⟩⟩
theorem witness_StepRunsTheDecodedInstruction :
    ∃ (s : State) (st : Store) (i : Instr), s.mmu = .ready st ∧ s.granted (st.drawsForAll (span s.pc 2)) ∧
      decode [s.byteAt s.pc, s.byteAt (s.pc + 1)] = .ok (i, []) ∧ ∃ t, exec i s = .next t :=
  ⟨memForm, _, .abcdMem 0 1, rfl, granted_of (by decide), rfl, exists_next (by decide)⟩
theorem witness_AbsentOpcodeFaults :
    ∃ (s : State) (st : Store) (w : Word), s.mmu = .ready st ∧ s.granted (st.drawsForAll (span s.pc 2)) ∧
      w = s.byteAt s.pc ++ s.byteAt (s.pc + 1) ∧ w &&& 0xF1F0#16 ≠ 0xC100#16 :=
  ⟨world [(0, 0x4E#8), (1, 0x71#8)] 0 [], _, 0x4E71#16, rfl, granted_of (by decide), by decide⟩
theorem witness_StepCompletesWithStorage :
    ∃ (s : State) (st : Store) (i : Instr), s.mmu = .ready st ∧ s.granted 8 ∧
      decodeWord (s.byteAt s.pc ++ s.byteAt (s.pc + 1)) = some i :=
  ⟨{ memForm with draws := List.replicate 8 true }, _, .abcdMem 0 1, rfl, granted_of (by decide), by decide⟩

/-- A step that completes with Z set before and after. -/
theorem witness_step_next : ∃ t, step (world [(0, 0xC3#8)] 0x0004#16 []) = .next t ∧ t.flag .z = true := by
  obtain ⟨t, h⟩ := exists_next (o := step (world [(0, 0xC3#8)] 0x0004#16 [])) (by decide)
  have hz : (nextOf (step (world [(0, 0xC3#8)] 0x0004#16 []))).map (fun t => t.flag .z) = some true := by decide
  exact ⟨t, h, by rw [h] at hz; exact Option.some.inj hz⟩
theorem witness_StepAdvancesPcByTwo : ∃ s t : State, step s = .next t := ⟨_, witness_step_next.imp fun _ h => h.1⟩
theorem witness_NoStepSetsZ : ∃ s t : State, step s = .next t ∧ t.flag .z = true := ⟨_, witness_step_next⟩
theorem witness_StepLeavesSupervisorState : ∃ s t : State, step s = .next t := witness_StepAdvancesPcByTwo
theorem witness_StepRefusedExactlyBeforeInitialize : ∃ s : State, s.mmu = .uninit := ⟨State.reset, rfl⟩
/-- The fetch refused, an absent opcode, and an operand refused. -/
theorem witness_StepFaultsArePrecise :
    (∃ r, step ((world [] 0 [false]).setPc 0xFFF#32) = .fault r) ∧
    (∃ w t, step (world [(0, 0x4E#8), (1, 0x71#8)] 0 []) = .fault (.noInstruction w t)) ∧
    ∃ r, step (world [(0, 0xC3#8), (1, 0x08#8)] 0 [false]) = .fault r := by
  refine ⟨exists_fault (by decide), ?_, exists_fault (by decide)⟩
  obtain ⟨r, h⟩ := exists_fault (o := step (world [(0, 0x4E#8), (1, 0x71#8)] 0 [])) (by decide)
  have hf : (faultOf (step (world [(0, 0x4E#8), (1, 0x71#8)] 0 []))).map
      (fun r => match r with | .noInstruction _ _ => true | .allocFailure _ _ => false) = some true := by decide
  rw [h] at hf
  cases r with
  | noInstruction w t => exact ⟨w, t, h⟩
  | allocFailure a t => cases hf

theorem inv_world (sr : Word) (draws : List Bool) : (world [(0, 0xC3#8)] sr draws).Inv := ⟨wf_world, cellsWf_nil⟩
theorem witness_StepKeepsTheInvariant : ∃ s t : State, s.Inv ∧ step s = .next t := by
  obtain ⟨t, h, _⟩ := witness_step_next
  exact ⟨_, t, inv_world _ _, h⟩
theorem witness_TransactionsKeepTheInvariant :
    (∃ (r : Request) (s t : State) (v : Reply), s.Inv ∧ transact r s = .next (t, v)) ∧
    ∃ (r : Request) (s : State) (f : Fault), s.Inv ∧ transact r s = .fault f := by
  obtain ⟨t, v, h⟩ := exists_next_pair
    (o := transact (.writeLong 0xFFFFFFFE#32 1) (world [(0, 0xC3#8)] 0 [true, true])) (by decide)
  obtain ⟨f, g⟩ := exists_fault (o := transact (.readWord 0xFFF#32) (world [(0, 0xC3#8)] 0 [false])) (by decide)
  exact ⟨⟨_, _, t, v, inv_world _ _, h⟩, ⟨_, _, f, inv_world _ _, g⟩⟩
/-- Two states with the same registers and bytes, one of which has a page more. -/
theorem witness_PagesAreInvisibleToPrograms :
    ∃ s s' t t' : State, s.looksLike s' ∧ s.mmu ≠ s'.mmu ∧ step s = .next t ∧ step s' = .next t' := by
  obtain ⟨t, h, _⟩ := witness_step_next
  have hm : ∃ s', s' = ((world [(0, 0xC3#8)] 0x0004#16 []).setMmu
      (.ready ((Store.mk [0] [(0, 0)] [(0, 0xC3#8)]).touch 0x1000#32))) := ⟨_, rfl⟩
  obtain ⟨s', hs⟩ := hm
  obtain ⟨t', h'⟩ := exists_next (o := step s') (by rw [hs]; decide)
  refine ⟨_, s', t, t', ⟨?_, fun k => ?_, ?_⟩, ?_, h, h'⟩
  · rw [hs]; simp [State.sameRegisters]
  · rw [hs, byteAt_setMmu_ready, byteAt_touch]; rfl
  · rw [hs]; rfl
  · rw [hs]; decide

end Sys2Proof.Machine.Tests
end

section
/-! Every function of two bytes can be given as the parameter `abcd_v` (00_scope.md R8, 41_abcd.md R166): the pairs at
which it differs from the default are among the finitely many pairs of bytes. -/

namespace Sys2Proof.Machine

/-- The 256 bytes. -/
def allBytes : List Byte := (List.finRange 256).map BitVec.ofFin

theorem mem_allBytes (b : Byte) : b ∈ allBytes := List.mem_map.mpr ⟨b.toFin, List.mem_finRange _, rfl⟩

/-- The pairs at which a function differs from the default of `abcd_v`. -/
def overflowDifferences (f : Byte → Byte → Bool) : List (Byte × Byte) :=
  (allBytes ×ˢ allBytes).filter fun p => f p.1 p.2 != abcdVDefault p.1 p.2

theorem mem_overflowDifferences (f : Byte → Byte → Bool) (r rr : Byte) :
    (r, rr) ∈ overflowDifferences f ↔ f r rr ≠ abcdVDefault r rr := by
  simp [overflowDifferences, mem_allBytes]

theorem abcdV_overflowDifferences (f : Byte → Byte → Bool) (r rr : Byte) :
    abcdV (overflowDifferences f) r rr = f r rr := by
  by_cases h : f r rr = abcdVDefault r rr
  · simp [abcdV, mem_overflowDifferences, h]
  · simp [abcdV, mem_overflowDifferences, Bool.eq_not_of_ne h]

/-- Settles O54: the list is that of the pairs at which the function differs from the default. -/
theorem everyOverflowFunctionCanBeGiven : Obligations.EveryOverflowFunctionCanBeGiven :=
  fun f => ⟨overflowDifferences f, abcdV_overflowDifferences f⟩

end Sys2Proof.Machine
end

section
/-! What holds of whatever an outcome leaves, completed or faulted, and its rule for a sequence of operations. -/

namespace Sys2Proof.Machine

section
variable {α β : Type} {Q : α → Prop} {R : β → Prop} {E : State → Prop}

/-- What a completed outcome hands on satisfies `Q`, and the state of a fault satisfies `E`; nothing is asked of a
refusal, which leaves no state. -/
def Ends (Q : α → Prop) (E : State → Prop) : Result α → Prop
  | .next x => Q x
  | .fault f => E f.final
  | .refused _ => True

theorem ends_iff {o : Result α} :
    Ends Q E o ↔ (∀ x, o = .next x → Q x) ∧ ∀ f, o = .fault f → E f.final := by
  cases o <;> simp [Ends]

theorem Ends.andThen {o : Result α} {f : α → Result β} (ho : Ends Q E o) (hf : ∀ x, Q x → Ends R E (f x)) :
    Ends R E (andThen o f) := by
  cases o with
  | next x => exact hf x ho
  | fault r => exact ho
  | refused r => trivial

/-- An access to a control register ends as what it runs, or is refused. -/
theorem Ends.onCtrl {o : Result α} (ho : Ends Q E o) (n : CtrlName) : Ends Q E (onCtrl n o) := by
  cases n with
  | other n =>
    cases hc : Config.hasOtherCtrl n with
    | true => simpa [Machine.onCtrl, hc] using ho
    | false => simp [Machine.onCtrl, hc, Ends]
  | _ => exact ho

end

end Sys2Proof.Machine
end

section
/-! No operation changes the parameter `abcd_v` (00_scope.md R8, 41_abcd.md R166): said of each shared operation once,
from the draws up to the transaction. -/

namespace Sys2Proof.Machine

/-- The parameter `abcd_v` of a state is the one `l` lists. -/
def HasParameter (l : List (Byte × Byte)) (s : State) : Prop := s.abcdVDiffers = l

/-- An operation's outcome, completed or faulted, leaves the parameter `l`. -/
abbrev EndsWithParameter (l : List (Byte × Byte)) : Result State → Prop := Ends (HasParameter l) (HasParameter l)

/-- The same where a completed operation hands on a second result beside the state. -/
abbrev RepliesWithParameter {γ : Type} (l : List (Byte × Byte)) : Result (State × γ) → Prop :=
  Ends (fun p => HasParameter l p.1) (HasParameter l)

section
variable {l : List (Byte × Byte)} {s : State} (h : HasParameter l s)
include h

/-! ## Draws, translation and the six accesses -/

theorem askStorage_keepsParameter (address : Option Long) : EndsWithParameter l (askStorage address s) := by
  cases hd : s.drawAt 0 with
  | true => rw [askStorage_granted address hd]; exact h
  | false => rw [askStorage_denied address hd]; exact h

theorem DeniedAt.keepsParameter {a : Long} {st : Store} {n : Nat} {r : Fault} (hd : DeniedAt a s st n r) :
    HasParameter l r.final := by
  obtain ⟨_, _, rfl, _⟩ := hd
  exact h

theorem translateAll_keepsParameter (as : List Long) : EndsWithParameter l (translateAll as s) := by
  refine ends_iff.mpr ⟨fun t ht => ?_, fun r hr => ?_⟩
  · cases as with
    | nil => cases ht; exact h
    | cons a as =>
      obtain ⟨st, _, _, rfl⟩ := translateAll_eq_next (List.cons_ne_nil a as) ht
      exact h
  · obtain ⟨st, _, a, _, hd⟩ := translateAll_eq_fault hr
    exact hd.keepsParameter h

theorem setByte_keepsParameter (a : Long) (v : Byte) : HasParameter l (s.setByte a v) :=
  (setByte_abcdVDiffers s a v).trans h

theorem readByte_keepsParameter (a : Long) : RepliesWithParameter l (readByte a s) :=
  (translateAll_keepsParameter h _).andThen fun _ ht => ht

theorem readWord_keepsParameter (a : Long) : RepliesWithParameter l (readWord a s) :=
  (translateAll_keepsParameter h _).andThen fun _ ht => ht

theorem readLong_keepsParameter (a : Long) : RepliesWithParameter l (readLong a s) :=
  (translateAll_keepsParameter h _).andThen fun _ ht => ht

theorem writeByte_keepsParameter (a : Long) (v : Byte) : EndsWithParameter l (writeByte a v s) :=
  (translateAll_keepsParameter h _).andThen fun _ ht => setByte_keepsParameter ht _ _

theorem writeWord_keepsParameter (a : Long) (v : Word) : EndsWithParameter l (writeWord a v s) :=
  (translateAll_keepsParameter h _).andThen fun _ ht => setByte_keepsParameter (setByte_keepsParameter ht _ _) _ _

theorem writeLong_keepsParameter (a v : Long) : EndsWithParameter l (writeLong a v s) :=
  (translateAll_keepsParameter h _).andThen fun _ ht =>
    setByte_keepsParameter (setByte_keepsParameter (setByte_keepsParameter (setByte_keepsParameter ht _ _) _ _) _ _) _ _

theorem mmuInitialize_keepsParameter : EndsWithParameter l (mmuInitialize s) := by
  unfold mmuInitialize
  cases s.mmu with
  | ready st => trivial
  | uninit =>
    exact (askStorage_keepsParameter h none).andThen fun _ ht =>
      (askStorage_keepsParameter ht none).andThen fun _ hu => (askStorage_keepsParameter hu none).andThen fun _ hv => hv

/-! ## The step -/

theorem readPreDecremented_keepsParameter (n : RegNum) : RepliesWithParameter l (readPreDecremented n s) :=
  readByte_keepsParameter (s := preDecrement n s) h _

theorem exec_keepsParameter (i : Instr) : EndsWithParameter l (exec i s) := by
  cases i with
  | abcdReg ry rx => exact h
  | abcdMem ry rx =>
    exact (readPreDecremented_keepsParameter h ry).andThen fun _ hp =>
      (readPreDecremented_keepsParameter hp rx).andThen fun _ hq =>
        (writeByte_keepsParameter hq _ _).andThen fun _ ht => ht

theorem ifetch_keepsParameter : RepliesWithParameter l (ifetch s) :=
  (readWord_keepsParameter h s.pc).andThen fun _ hp => hp

theorem dispatchOpcode_keepsParameter (w : Word) : EndsWithParameter l (dispatchOpcode w s) := by
  unfold dispatchOpcode
  cases decodeWord w with
  | none => exact h
  | some i => exact (exec_keepsParameter h i).andThen fun _ ht => ht

theorem step_keepsParameter : EndsWithParameter l (step s) :=
  (ifetch_keepsParameter h).andThen fun _ hp => dispatchOpcode_keepsParameter hp _

/-! ## The host's transactions -/

theorem setReg_keepsParameter (g : GeneralReg) (v : Long) : HasParameter l (s.setReg g v) := by
  cases g with
  | d n => exact h
  | a n => exact h

theorem completed_keepsParameter : RepliesWithParameter l (completed s) := h

theorem answered_keepsParameter {w : Nat} (v : BitVec w) : RepliesWithParameter l (answered v s) := h

end

section
variable {l : List (Byte × Byte)}

theorem replied_keepsParameter {w : Nat} {o : Result (State × BitVec w)} (ho : RepliesWithParameter l o) :
    RepliesWithParameter l (replied o) := ho.andThen fun _ hp => hp

theorem andThen_completed_keepsParameter {o : Result State} (ho : EndsWithParameter l o) :
    RepliesWithParameter l (andThen o completed) := ho.andThen fun _ ht => completed_keepsParameter ht

theorem transact_keepsParameter {s : State} (h : HasParameter l s) (r : Request) :
    RepliesWithParameter l (transact r s) := by
  cases r with
  | mmuInitialize => exact andThen_completed_keepsParameter (mmuInitialize_keepsParameter h)
  | readByte a => exact replied_keepsParameter (readByte_keepsParameter h a)
  | readWord a => exact replied_keepsParameter (readWord_keepsParameter h a)
  | readLong a => exact replied_keepsParameter (readLong_keepsParameter h a)
  | writeByte a v => exact andThen_completed_keepsParameter (writeByte_keepsParameter h a v)
  | writeWord a v => exact andThen_completed_keepsParameter (writeWord_keepsParameter h a v)
  | writeLong a v => exact andThen_completed_keepsParameter (writeLong_keepsParameter h a v)
  | step => exact andThen_completed_keepsParameter (step_keepsParameter h)
  | setReg g v => exact completed_keepsParameter (setReg_keepsParameter h g _)
  | setRegWord g k v => exact completed_keepsParameter (setReg_keepsParameter h g _)
  | setRegByte g k v => exact completed_keepsParameter (setReg_keepsParameter h g _)
  | getCtrl n => exact (answered_keepsParameter h _).onCtrl n
  | setCtrl n v => exact (completed_keepsParameter (s := s.setCtrl (ctrlSet s.ctrl n v)) h).onCtrl n
  | mmuDestroy | reset | setPc | setSr | setFlag | setMask | setTrace => exact completed_keepsParameter h
  | getReg | getRegWord | getRegByte | getPc | getSr | getFlag | getMask | getTrace => exact answered_keepsParameter h _
  | lookup w => exact h

end

/-- Settles O55, through the rule of every operation a transaction is built from. -/
theorem parameterIsFixed : Obligations.ParameterIsFixed := by
  intro r s
  obtain ⟨hnext, hfault⟩ := ends_iff.mp (transact_keepsParameter (l := s.abcdVDiffers) rfl r)
  exact ⟨fun t v => hnext (t, v), hfault⟩

end Sys2Proof.Machine
end

section
/-! What the spec calls inert is carried along by every operation a step is built from (10_state.md R30, R33, R34,
60_exceptions.md R216, R222 to R224): running the operation after `withInert` is running it before. -/

namespace Sys2Proof.Machine

/-! ## Outcomes under a map of the state -/

section
variable {α β : Type}

/-- Apply `g` to what an outcome hands on and `f` to the state a fault leaves. -/
def mapResult (f : State → State) (g : α → β) : Result α → Result β
  | .next x => .next (g x)
  | .fault r => .fault (r.mapFinal f)
  | .refused r => .refused r

variable (f : State → State)

theorem mapResult_self (o : Result State) : mapResult f f o = mapOutcome f o := by cases o <;> rfl

@[simp] theorem mapResult_next (g : α → β) (x : α) : mapResult f g (.next x) = .next (g x) := rfl

/-- A sequence commutes with a map if its parts do. -/
theorem andThen_mapResult {γ δ : Type} {g : α → β} {h : γ → δ} {o : Result α} {k : α → Result γ} {k' : β → Result δ}
    (hk : ∀ x, k' (g x) = mapResult f h (k x)) : andThen (mapResult f g o) k' = mapResult f h (andThen o k) := by
  cases o with
  | next x => exact hk x
  | fault r => rfl
  | refused r => rfl

end

/-! ## The status word -/

/-- A status word with its bits above the condition flags replaced. -/
def withBeyond (b : BitVec 11) (sr : Word) : Word := b ++ sr.extractLsb' 0 5

theorem getLsbD_withBeyond (b : BitVec 11) (sr : Word) (j : Nat) :
    (withBeyond b sr).getLsbD j = if j < 5 then sr.getLsbD j else b.getLsbD (j - 5) := by
  simp only [withBeyond, BitVec.getLsbD_append, BitVec.getLsbD_extractLsb', Nat.zero_add]
  split <;> simp [*]

theorem beyondFlags_withBeyond (b : BitVec 11) (sr : Word) : beyondFlags (withBeyond b sr) = b := by
  apply BitVec.eq_of_getLsbD_eq
  intro i hi
  simp [beyondFlags, getLsbD_withBeyond, hi]

theorem getLsbD_eq_beyondFlags (sr : Word) {j : Nat} (h5 : 5 ≤ j) (hj : j < 16) :
    sr.getLsbD j = (beyondFlags sr).getLsbD (j - 5) := by
  rw [beyondFlags, BitVec.getLsbD_extractLsb', decide_eq_true (show j - 5 < 11 by omega), Bool.true_and,
    Nat.add_sub_cancel' h5]

theorem withBeyond_beyondFlags (sr : Word) : withBeyond (beyondFlags sr) sr = sr := by
  apply BitVec.eq_of_getLsbD_eq
  intro i hi
  rw [getLsbD_withBeyond]
  split
  · rfl
  · exact (getLsbD_eq_beyondFlags sr (by omega) hi).symm

theorem readFlag_withBeyond {f : Flag} (hf : IsCondition f) (b : BitVec 11) (sr : Word) :
    readFlag f (withBeyond b sr) = readFlag f sr := by
  rw [readFlag, getLsbD_withBeyond, if_pos (show flagBit f < 5 from hf), readFlag]

/-- A condition flag's write does not see the bits above the flags. -/
theorem writeFlag_withBeyond {f : Flag} (hf : IsCondition f) (x : Bool) (b : BitVec 11) (sr : Word) :
    writeFlag f x (withBeyond b sr) = withBeyond b (writeFlag f x sr) := by
  unfold IsCondition at hf
  apply BitVec.eq_of_getLsbD_eq
  intro j hj
  rw [getLsbD_writeFlag f x _ hj, getLsbD_withBeyond, getLsbD_withBeyond, getLsbD_writeFlag f x sr hj]
  by_cases h5 : j < 5
  · simp only [if_pos h5]
  · rw [if_neg h5, if_neg h5, if_neg (by omega)]

/-- The condition-code update does not see the bits above the flags (41_abcd.md R169). -/
theorem ccAbcd_withBeyond (v : Byte → Byte → Bool) (r bc rr : Byte) (b : BitVec 11) (sr : Word) :
    ccAbcd v r bc rr (withBeyond b sr) = withBeyond b (ccAbcd v r bc rr sr) := by
  have hc : ∀ f ∈ [Flag.c, .v, .z, .n, .x], IsCondition f := by unfold IsCondition; decide
  simp only [ccAbcd]
  split <;> simp only [writeFlag_withBeyond, hc, List.mem_cons, true_or, or_true]

/-! ## The state's updates -/

section
variable (b : BitVec 11) (c : ControlRegs) (s : State)

@[simp] theorem withInert_pc : (s.withInert b c).pc = s.pc := rfl
@[simp] theorem withInert_sr : (s.withInert b c).sr = withBeyond b s.sr := rfl
@[simp] theorem withInert_ctrl : (s.withInert b c).ctrl = c := rfl
@[simp] theorem withInert_mmu : (s.withInert b c).mmu = s.mmu := rfl
@[simp] theorem aReg_withInert (n : RegNum) : (s.withInert b c).aReg n = s.aReg n := rfl
@[simp] theorem dByte_withInert (n : RegNum) : (s.withInert b c).dByte n = s.dByte n := rfl

@[simp] theorem flag_x_withInert : (s.withInert b c).flag .x = s.flag .x :=
  readFlag_withBeyond (f := .x) (by unfold IsCondition; decide) b s.sr

@[simp] theorem setMmu_withInert (m : Mmu) : (s.withInert b c).setMmu m = (s.setMmu m).withInert b c := rfl
@[simp] theorem setDByte_withInert (n : RegNum) (x : Byte) :
    (s.withInert b c).setDByte n x = (s.setDByte n x).withInert b c := rfl

@[simp] theorem setByte_withInert (a : Long) (v : Byte) :
    (s.withInert b c).setByte a v = (s.setByte a v).withInert b c := by
  cases hm : s.mmu with
  | uninit => simp [State.setByte, hm]
  | ready st => rw [setByte_of_ready hm, setByte_of_ready (s := s.withInert b c) hm, setMmu_withInert]

@[simp] theorem setAbcdFlags_withInert (dst src : Byte) (x : Bool) :
    (s.withInert b c).setAbcdFlags dst src x = (s.setAbcdFlags dst src x).withInert b c :=
  congrArg (fun sr => { s with sr := sr, ctrl := c }) (ccAbcd_withBeyond _ _ _ _ b s.sr)

/-- A state is its own with its inert parts put back. -/
theorem withInert_self : s.withInert (beyondFlags s.sr) s.ctrl = s :=
  congrArg (fun sr => { s with sr := sr }) (withBeyond_beyondFlags s.sr)

/-! ## Translation and the accesses -/

/-- An operation's outcome with the inert parts of the state it leaves replaced. -/
abbrev outcomeWithInert : Result State → Result State := mapResult (State.withInert b c) (State.withInert b c)

/-- The same where a completed operation hands on a second result beside the state. -/
abbrev replyWithInert {γ : Type} : Result (State × γ) → Result (State × γ) :=
  mapResult (State.withInert b c) fun p => (p.1.withInert b c, p.2)

theorem askStorage_withInert (address : Option Long) :
    askStorage address (s.withInert b c) = outcomeWithInert b c (askStorage address s) := by
  cases hd : s.drawAt 0 with
  | true => rw [askStorage_granted address hd, askStorage_granted (s := s.withInert b c) address hd]; rfl
  | false => rw [askStorage_denied address hd, askStorage_denied (s := s.withInert b c) address hd]; rfl

theorem ensureTable_withInert (a : Long) :
    ensureTable a (s.withInert b c) = outcomeWithInert b c (ensureTable a s) := by
  cases hm : s.mmu with
  | uninit => simp only [ensureTable, withInert_mmu, hm]; rfl
  | ready st =>
    by_cases ht : dirIndex a ∈ st.tables
    · simp only [ensureTable, withInert_mmu, hm, if_pos ht, mapResult_next]
    · simp only [ensureTable, withInert_mmu, hm, if_neg ht, askStorage_withInert]
      exact andThen_mapResult _ fun _ => rfl

theorem ensurePage_withInert (a : Long) :
    ensurePage a (s.withInert b c) = outcomeWithInert b c (ensurePage a s) := by
  cases hm : s.mmu with
  | uninit => simp only [ensurePage, withInert_mmu, hm]; rfl
  | ready st =>
    by_cases hp : pageOf a ∈ st.pages
    · simp only [ensurePage, withInert_mmu, hm, if_pos hp, mapResult_next]
    · simp only [ensurePage, withInert_mmu, hm, if_neg hp, askStorage_withInert]
      exact andThen_mapResult _ fun _ => rfl

theorem translate_withInert (a : Long) : translate a (s.withInert b c) = replyWithInert b c (translate a s) := by
  rw [translate, ensureTable_withInert]
  refine andThen_mapResult _ fun t => ?_
  rw [ensurePage_withInert]
  exact andThen_mapResult _ fun _ => rfl

theorem translateAll_withInert (as : List Long) :
    translateAll as (s.withInert b c) = outcomeWithInert b c (translateAll as s) := by
  induction as generalizing s with
  | nil => rfl
  | cons a as ih =>
    rw [translateAll, translate_withInert]
    exact andThen_mapResult _ fun p => ih p.1

theorem readByte_withInert (a : Long) : readByte a (s.withInert b c) = replyWithInert b c (readByte a s) := by
  rw [readByte, translateAll_withInert]
  exact andThen_mapResult _ fun _ => rfl

theorem readWord_withInert (a : Long) : readWord a (s.withInert b c) = replyWithInert b c (readWord a s) := by
  rw [readWord, translateAll_withInert]
  exact andThen_mapResult _ fun _ => rfl

theorem writeByte_withInert (a : Long) (v : Byte) :
    writeByte a v (s.withInert b c) = outcomeWithInert b c (writeByte a v s) := by
  rw [writeByte, translateAll_withInert]
  exact andThen_mapResult _ fun t => by rw [setByte_withInert, mapResult_next]

/-! ## The step -/

theorem readPreDecremented_withInert (n : RegNum) :
    readPreDecremented n (s.withInert b c) = replyWithInert b c (readPreDecremented n s) :=
  readByte_withInert b c (preDecrement n s) _

theorem execAbcdReg_withInert (ry rx : RegNum) :
    execAbcdReg ry rx (s.withInert b c) = outcomeWithInert b c (execAbcdReg ry rx s) := by
  simp only [execAbcdReg, flag_x_withInert, dByte_withInert, setDByte_withInert, setAbcdFlags_withInert, mapResult_next]

theorem execAbcdMem_withInert (ry rx : RegNum) :
    execAbcdMem ry rx (s.withInert b c) = outcomeWithInert b c (execAbcdMem ry rx s) := by
  simp only [execAbcdMem, flag_x_withInert, readPreDecremented_withInert]
  refine andThen_mapResult _ fun p => ?_
  rw [readPreDecremented_withInert]
  refine andThen_mapResult _ fun q => ?_
  rw [aReg_withInert, writeByte_withInert]
  exact andThen_mapResult _ fun t => by rw [setAbcdFlags_withInert, mapResult_next]

theorem exec_withInert (i : Instr) : exec i (s.withInert b c) = outcomeWithInert b c (exec i s) := by
  cases i with
  | abcdReg ry rx => exact execAbcdReg_withInert b c s ry rx
  | abcdMem ry rx => exact execAbcdMem_withInert b c s ry rx

theorem ifetch_withInert : ifetch (s.withInert b c) = replyWithInert b c (ifetch s) := by
  rw [ifetch, withInert_pc, readWord_withInert]
  exact andThen_mapResult _ fun _ => rfl

theorem dispatchOpcode_withInert (w : Word) :
    dispatchOpcode w (s.withInert b c) = outcomeWithInert b c (dispatchOpcode w s) := by
  unfold dispatchOpcode
  cases decodeWord w with
  | none => rfl
  | some i =>
    simp only [exec_withInert]
    exact andThen_mapResult _ fun _ => rfl

theorem step_withInert : step (s.withInert b c) = mapOutcome (State.withInert b c) (step s) := by
  rw [← mapResult_self, step, ifetch_withInert]
  exact andThen_mapResult _ fun p => dispatchOpcode_withInert b c p.1 p.2

end

/-- Settles O51, through the rule of every operation a step is built from. -/
theorem supervisorStateIsInert : Obligations.SupervisorStateIsInert := step_withInert

/-- A completed step keeps the inert parts: this is `step_withInert` with the parts the state itself has. -/
theorem step_keepsInert {s t : State} (h : step s = .next t) :
    t.ctrl = s.ctrl ∧ beyondFlags t.sr = beyondFlags s.sr := by
  have hs := step_withInert (beyondFlags s.sr) s.ctrl s
  rw [withInert_self, h] at hs
  have ht : t = t.withInert (beyondFlags s.sr) s.ctrl := by simpa [mapOutcome] using hs
  rw [ht, withInert_ctrl, withInert_sr, beyondFlags_withBeyond]
  exact ⟨rfl, rfl⟩

/-- Settles O47: what cannot affect a step (`step_withInert`), a step cannot affect either. -/
theorem stepLeavesSupervisorState : Obligations.StepLeavesSupervisorState := by
  intro s t h
  obtain ⟨hctrl, hsr⟩ := step_keepsInert h
  exact ⟨hctrl, fun j hj h5 => by rw [getLsbD_eq_beyondFlags t.sr h5 hj, getLsbD_eq_beyondFlags s.sr h5 hj, hsr]⟩

end Sys2Proof.Machine
end

section
/-! The register file's narrow views, the fields of the status word, the control registers and the reset values
(10_state.md R24, R31, R34, R35, R38). -/

namespace Sys2Proof.Machine

/-! ## Narrow views -/

theorem byteView_writeByteView (k : Fin 4) (x : Byte) (v : Long) : byteView k (writeByteView k x v) = x :=
  readBits_writeBits_self v _ x (by unfold byteViewLow; omega)

theorem wordView_writeWordView (k : Fin 2) (x : Word) (v : Long) : wordView k (writeWordView k x v) = x :=
  readBits_writeBits_self v _ x (by unfold wordViewLow; omega)

theorem getLsbD_writeByteView (k : Fin 4) (x : Byte) (v : Long) {j : Nat} (hj : j < 32) :
    (writeByteView k x v).getLsbD j =
      if 24 - 8 * k.val ≤ j ∧ j ≤ 31 - 8 * k.val then x.getLsbD (j - (24 - 8 * k.val)) else v.getLsbD j := by
  have hrange : j < 24 - 8 * k.val + 8 ↔ j ≤ 31 - 8 * k.val := by omega
  simp only [writeByteView, getLsbD_writeBits v _ x hj, byteViewLow, hrange]

theorem writeWordView_low (v : Long) (x : Word) : writeWordView 1 x v = v.extractLsb' 16 16 ++ x := by
  apply BitVec.eq_of_getLsbD_eq
  intro j hj
  rw [writeWordView, getLsbD_writeBits v _ x hj, BitVec.getLsbD_append, BitVec.getLsbD_extractLsb']
  by_cases h : j < 16
  · simp [wordViewLow, h]
  · simp [wordViewLow, h, show j - 16 < 16 by omega, show 16 + (j - 16) = j by omega]

theorem writeWordView_high (v : Long) (x : Word) : writeWordView 0 x v = x ++ v.extractLsb' 0 16 := by
  apply BitVec.eq_of_getLsbD_eq
  intro j hj
  rw [writeWordView, getLsbD_writeBits v _ x hj, BitVec.getLsbD_append, BitVec.getLsbD_extractLsb']
  by_cases h : j < 16
  · simp [wordViewLow, h]
  · simp [wordViewLow, h, show 16 ≤ j by omega, hj]

/-- Settles O8, by the law of a view write, bit by bit. -/
theorem viewWriteReplacesOnlyItsBits : Obligations.ViewWriteReplacesOnlyItsBits := fun v =>
  ⟨fun k x => ⟨byteView_writeByteView k x v, fun _ hj => getLsbD_writeByteView k x v hj⟩,
    writeByteView_low v,
    fun x => ⟨writeWordView_low v x, wordView_writeWordView 1 x v⟩,
    fun x => ⟨writeWordView_high v x, wordView_writeWordView 0 x v⟩⟩

/-! ## The status word -/

theorem extractLsb'_writeSrField {n : Nat} (lo : Nat) (v : BitVec n) (sr : Word) (hn : lo + n ≤ 16) :
    (writeSrField lo v sr).extractLsb' lo n = v := by
  apply BitVec.eq_of_getLsbD_eq
  intro i hi
  rw [BitVec.getLsbD_extractLsb', getLsbD_writeSrField lo v sr (by omega), if_pos (by omega)]
  simp [hi]

theorem getLsbD_writeSrField_of_outside {n : Nat} {lo : Nat} (v : BitVec n) (sr : Word) {j : Nat} (hj : j < 16)
    (ho : ¬(lo ≤ j ∧ j < lo + n)) : (writeSrField lo v sr).getLsbD j = sr.getLsbD j := by
  rw [getLsbD_writeSrField lo v sr hj, if_neg ho]

/-- Settles O9, by the law of a flag write and that of a field write. -/
theorem flagWritePreservesOtherBits : Obligations.FlagWritePreservesOtherBits := by
  refine fun sr => ⟨fun f b => ⟨by simp, fun j hj hne => ?_⟩,
    fun v => ⟨extractLsb'_writeSrField 8 v sr (by decide), fun j hj ho => ?_⟩,
    fun v => ⟨extractLsb'_writeSrField 14 v sr (by decide), fun j hj => ?_⟩⟩
  · rw [getLsbD_writeFlag f b sr hj, if_neg hne]
  · exact getLsbD_writeSrField_of_outside v sr hj (by omega)
  · exact getLsbD_writeSrField_of_outside v sr (by omega) (by omega)

/-! ## Control registers -/

/-- Read after write: each control register is a cell of its own (R34, R35). -/
theorem ctrlGet_ctrlSet (c : ControlRegs) (r e : CtrlName) (v : Long) :
    ctrlGet (ctrlSet c r v) e = if e = r then v else ctrlGet c e := by
  cases r with
  | other n =>
    cases e with
    | other m => simp [ctrlGet, ctrlSet]
    | vbr | ssp | isp | msp => rfl
  | vbr | ssp | isp | msp => cases e <;> rfl

theorem onCtrl_of_exists {α : Type} {c : CtrlName} (h : ∀ n, c = .other n → Config.hasOtherCtrl n = true)
    (k : Result α) : onCtrl c k = k := by
  cases c with
  | other n => simp [onCtrl, h n rfl]
  | vbr | ssp | isp | msp => rfl

/-- Settles O12, by the read-after-write law of the control registers. -/
theorem controlRegistersAreIndependentCells : Obligations.ControlRegistersAreIndependentCells := by
  intro c v s hc
  refine ⟨s.setCtrl (ctrlSet s.ctrl c v), onCtrl_of_exists hc _, ?_, fun e he => ?_, rfl, rfl, rfl, rfl, rfl, rfl⟩
  · simp only [transact, onCtrl_of_exists hc, setCtrl_ctrl, ctrlGet_ctrlSet, if_true, answered]
  · rw [setCtrl_ctrl, ctrlGet_ctrlSet, if_neg he]

/-! ## Reset -/

theorem dReg_reset (n : RegNum) : State.reset.dReg n = 0 := by simp [State.dReg, State.reset]

theorem aReg_reset (n : RegNum) : State.reset.aReg n = 0 := by simp [State.aReg, State.reset]

theorem ctrlGet_reset (c : CtrlName) : ctrlGet State.reset.ctrl c = 0 := by cases c <;> rfl

theorem flag_reset (f : Flag) : State.reset.flag f = false := BitVec.getLsbD_zero

theorem byteAt_fresh (k : Long) : Store.fresh.byteAt k = 0 := by simp [Store.byteAt, Store.fresh, cellsGet]

/-- Settles O6, cell by cell. -/
theorem resetLeavesEveryCellZero : Obligations.ResetLeavesEveryCellZero :=
  ⟨fun n => ⟨dReg_reset n, aReg_reset n⟩, rfl, rfl, ctrlGet_reset, rfl, flag_reset, rfl, rfl, rfl, byteAt_fresh⟩

/-- Settles O48: nothing is asked of an `UNINIT` MMU, and no further control register is listed. -/
theorem resetSatisfiesTheInvariant : Obligations.ResetSatisfiesTheInvariant := ⟨trivial, cellsWf_nil⟩

end Sys2Proof.Machine
end

section
/-! One law for each lifecycle operation of the MMU: `mmu_initialize` completes when its three draws are granted and
otherwise stops at the first that is refused (20_memory.md R70, R71). -/

namespace Sys2Proof.Machine

section
variable {s t : State}

theorem granted_succ {n : Nat} : s.granted (n + 1) ↔ s.granted n ∧ s.drawAt n = true := by
  rw [granted_add]
  simp [State.granted]

/-- The storage request after `n` draws have been taken. -/
theorem askStorage_dropDraws (address : Option Long) (s : State) (n : Nat) :
    askStorage address (s.dropDraws n) =
      if s.drawAt n then .next (s.dropDraws (n + 1))
      else .fault (.allocFailure address (s.dropDraws (n + 1))) := by
  simp [askStorage, raiseAllocFailure]

/-- Everything `mmu_initialize` can do while the MMU is `UNINIT`. -/
theorem mmuInitialize_uninit (hm : s.mmu = .uninit) :
    (s.granted 3 ∧ mmuInitialize s = .next ((s.dropDraws 3).setMmu (.ready .fresh))) ∨
    ∃ k < 3, s.granted k ∧ s.drawAt k = false ∧
      mmuInitialize s = .fault (.allocFailure none (s.dropDraws (k + 1))) := by
  have h0 := askStorage_dropDraws none s 0
  have h1 := askStorage_dropDraws none s 1
  have h2 := askStorage_dropDraws none s 2
  rw [dropDraws_zero] at h0
  cases d0 : s.drawAt 0 with
  | false => exact .inr ⟨0, by decide, granted_zero, d0, by simp [mmuInitialize, hm, h0, d0]⟩
  | true =>
    have g1 : s.granted 1 := granted_succ.mpr ⟨granted_zero, d0⟩
    cases d1 : s.drawAt 1 with
    | false => exact .inr ⟨1, by decide, g1, d1, by simp [mmuInitialize, hm, h0, d0, h1, d1]⟩
    | true =>
      have g2 : s.granted 2 := granted_succ.mpr ⟨g1, d1⟩
      cases d2 : s.drawAt 2 with
      | false => exact .inr ⟨2, by decide, g2, d2, by simp [mmuInitialize, hm, h0, d0, h1, d1, h2, d2]⟩
      | true => exact .inl ⟨granted_succ.mpr ⟨g2, d2⟩, by simp [mmuInitialize, hm, h0, d0, h1, d1, h2, d2]⟩

theorem mmuInitialize_ready {st : Store} (hm : s.mmu = .ready st) :
    mmuInitialize s = .refused .mmuAlreadyInitialized := by
  simp [mmuInitialize, hm]

theorem mmuInitialize_granted (hm : s.mmu = .uninit) (hg : s.granted 3) :
    mmuInitialize s = .next ((s.dropDraws 3).setMmu (.ready .fresh)) := by
  rcases mmuInitialize_uninit hm with ⟨_, he⟩ | ⟨k, hk, _, hd, _⟩
  · exact he
  · exact absurd (hg k hk) (by simp [hd])

/-- A refused draw ends `mmu_initialize`; no other draw can be the one it stops at. -/
theorem mmuInitialize_denied (hm : s.mmu = .uninit) {k : Nat} (hk : k < 3) (hg : s.granted k)
    (hd : s.drawAt k = false) : mmuInitialize s = .fault (.allocFailure none (s.dropDraws (k + 1))) := by
  rcases mmuInitialize_uninit hm with ⟨hg3, _⟩ | ⟨j, _, hgj, hdj, he⟩
  · exact absurd (hg3 k hk) (by simp [hd])
  · have hjk : ¬ j < k := fun h => absurd (hg j h) (by simp [hdj])
    have hkj : ¬ k < j := fun h => absurd (hgj k h) (by simp [hd])
    obtain rfl : j = k := by omega
    exact he

theorem mmuInitialize_eq_next (h : mmuInitialize s = .next t) :
    s.mmu = .uninit ∧ t = (s.dropDraws 3).setMmu (.ready .fresh) := by
  cases hm : s.mmu with
  | ready st => rw [mmuInitialize_ready hm] at h; cases h
  | uninit =>
    rcases mmuInitialize_uninit hm with ⟨_, he⟩ | ⟨_, _, _, _, he⟩ <;> rw [he] at h <;> cases h
    exact ⟨rfl, rfl⟩

end

/-! ## The statements about the lifecycle -/

/-- Settles O13: the granted case of `mmuInitialize_uninit`, and the refusal while `READY`. -/
theorem initializeMakesTheFirstPage : Obligations.InitializeMakesTheFirstPage := by
  refine fun s => ⟨fun hm hg => ⟨_, mmuInitialize_granted hm hg, ⟨.fresh, rfl, fun d => ?_, fun p => ?_⟩,
    byteAt_fresh, ⟨rfl, rfl, rfl, rfl, rfl, rfl⟩, fun k => ?_⟩, fun st hm => mmuInitialize_ready hm⟩
  · exact List.mem_singleton
  · exact List.mem_singleton
  · rw [drawAt_setMmu, drawAt_dropDraws]

/-- Settles O14: the refused case, and then the granted case from the state it leaves. -/
theorem failedInitializeLeavesUninit : Obligations.FailedInitializeLeavesUninit := by
  intro s k hm hk hg hd
  exact ⟨s.dropDraws (k + 1), mmuInitialize_denied hm hk hg hd, hm, ⟨rfl, rfl, rfl, rfl, rfl, rfl⟩,
    fun j => drawAt_dropDraws s (k + 1) j, fun hg3 => ⟨_, mmuInitialize_granted hm hg3, rfl⟩⟩

/-- Settles O15: whatever was there, the next `mmu_initialize` leaves the fresh store. -/
theorem destroyReleasesEverything : Obligations.DestroyReleasesEverything := by
  refine fun s => ⟨mmuDestroy s, rfl, rfl, ⟨rfl, rfl, rfl, rfl, rfl, rfl⟩, setMmu_self, fun u hu k => ?_⟩
  obtain ⟨_, rfl⟩ := mmuInitialize_eq_next hu
  exact byteAt_fresh k

end Sys2Proof.Machine
end

section
/-! What is kept while nothing is released (20_memory.md R67, 60_exceptions.md R219): every operation but `mmu_destroy`
and `reset`, completed or faulted, keeps the invariant and every table and page that was there. Said of each shared
operation once, from translation up to the transaction. -/

namespace Sys2Proof.Machine

/-- The invariant of the block is kept, and a `READY` MMU stays `READY` with every table and page it had. -/
def State.Grows (s t : State) : Prop :=
  (s.Inv → t.Inv) ∧ ∀ st, s.mmu = .ready st →
    ∃ st', t.mmu = .ready st' ∧ (∀ d ∈ st.tables, d ∈ st'.tables) ∧ ∀ p ∈ st.pages, p ∈ st'.pages

/-- The MMU is `READY` and the tables and pages of these addresses are present. -/
def State.Covers (s : State) (as : List Long) : Prop := ∃ st, s.mmu = .ready st ∧ st.Covers as

/-- An operation's outcome, completed or faulted, leaves a state that `s` grows into; `state` picks it from what a
completed operation hands on. -/
abbrev EndsGrown {α : Type} (state : α → State) (s : State) : Result α → Prop :=
  Ends (fun x => s.Grows (state x)) s.Grows

/-! ## Growing, one update at a time -/

section
variable {s t u : State} {st : Store}

theorem State.Grows.of_mmu_ctrl (hm : t.mmu = s.mmu) (hc : t.ctrl = s.ctrl) : s.Grows t :=
  ⟨fun h => by rwa [State.Inv, hm, hc], fun st hs => ⟨st, hm.trans hs, fun _ h => h, fun _ h => h⟩⟩

theorem State.Grows.refl (s : State) : s.Grows s := .of_mmu_ctrl rfl rfl

theorem State.Grows.trans (h : s.Grows t) (g : t.Grows u) : s.Grows u := by
  refine ⟨fun hs => g.1 (h.1 hs), fun st hs => ?_⟩
  obtain ⟨st1, ht, htab, hpag⟩ := h.2 st hs
  obtain ⟨st2, hu, htab', hpag'⟩ := g.2 st1 ht
  exact ⟨st2, hu, fun d hd => htab' d (htab d hd), fun p hp => hpag' p (hpag p hp)⟩

/-- Allocation grows the state. -/
theorem State.Grows.of_extends (hs : s.mmu = .ready st) {st' : Store} (ht : t.mmu = .ready st')
    (hc : t.ctrl = s.ctrl) (hx : st.Extends st') : s.Grows t := by
  obtain ⟨_, htab, hpag, hwf⟩ := hx
  refine ⟨fun hi => ?_, fun st1 h1 => ?_⟩
  · rw [State.Inv, hs] at hi
    rw [State.Inv, ht, hc]
    exact ⟨hwf hi.1, hi.2⟩
  · obtain rfl : st = st1 := by simpa [hs] using h1
    exact ⟨st', ht, htab, hpag⟩

theorem DeniedAt.grows {a : Long} {n : Nat} {r : Fault} (hs : s.mmu = .ready st) (h : DeniedAt a s st n r) :
    s.Grows r.final := by
  obtain ⟨_, st', rfl, _, _, _, hx⟩ := h
  exact .of_extends hs (st' := st') rfl rfl hx

/-- A byte stored in a present page grows the state. -/
theorem State.Grows.setByte {as : List Long} (hc : s.Covers as) {a : Long} (ha : a ∈ as) (v : Byte) :
    s.Grows (s.setByte a v) := by
  obtain ⟨st, hs, hcov⟩ := hc
  have ht := setByte_mmu hs a v
  refine ⟨fun hi => ?_, fun st1 h1 => ?_⟩
  · rw [State.Inv, hs] at hi
    rw [State.Inv, ht, setByte_ctrl]
    exact ⟨wf_setByte hi.1 (hcov a ha).2 v, hi.2⟩
  · obtain rfl : st = st1 := by simpa [hs] using h1
    exact ⟨st.setByte a v, ht, fun _ h => h, fun _ h => h⟩

/-- A stored byte leaves what is present as it was. -/
theorem State.Covers.setByte {as : List Long} (hc : s.Covers as) (a : Long) (v : Byte) :
    (s.setByte a v).Covers as := by
  obtain ⟨st, hs, hcov⟩ := hc
  exact ⟨st.setByte a v, setByte_mmu hs a v, hcov⟩

end

/-! ## Sequences -/

section
variable {α β : Type} {state : α → State} {state' : β → State} {s : State}

/-- Operations that each grow the state they start from grow it one after another. -/
theorem EndsGrown.andThen {o : Result α} {f : α → Result β} (ho : EndsGrown state s o)
    (hf : ∀ x, EndsGrown state' (state x) (f x)) : EndsGrown state' s (andThen o f) := by
  refine Ends.andThen ho fun x hx => ?_
  obtain ⟨hnext, hfault⟩ := ends_iff.mp (hf x)
  exact ends_iff.mpr ⟨fun y hy => hx.trans (hnext y hy), fun r hr => hx.trans (hfault r hr)⟩

theorem EndsGrown.completed {o : Result State} (ho : EndsGrown id s o) :
    EndsGrown Prod.fst s (Machine.andThen o completed) := ho.andThen fun t => .refl t

theorem EndsGrown.replied {w : Nat} {o : Result (State × BitVec w)} (ho : EndsGrown Prod.fst s o) :
    EndsGrown Prod.fst s (replied o) := ho.andThen fun p => .refl p.1

end

/-! ## Translation and the six accesses -/

section
variable (s : State)

/-- The translations of an access grow the state until its addresses are present. -/
theorem translateAll_grows {as : List Long} (ha : as ≠ []) :
    Ends (fun t => s.Grows t ∧ t.Covers as) s.Grows (translateAll as s) := by
  refine ends_iff.mpr ⟨fun t ht => ?_, fun r hr => ?_⟩
  · obtain ⟨st, hs, _, rfl⟩ := translateAll_eq_next ha ht
    exact ⟨.of_extends hs rfl rfl (extends_touchAll st as), st.touchAll as, rfl, covers_touchAll st as⟩
  · obtain ⟨st, hs, a, _, hd⟩ := translateAll_eq_fault hr
    exact hd.grows hs

theorem readByte_grows (a : Long) : EndsGrown Prod.fst s (readByte a s) :=
  (translateAll_grows s (span_ne_nil a (by decide))).andThen fun _ ht => ht.1

theorem readWord_grows (a : Long) : EndsGrown Prod.fst s (readWord a s) :=
  (translateAll_grows s (span_ne_nil a (by decide))).andThen fun _ ht => ht.1

theorem readLong_grows (a : Long) : EndsGrown Prod.fst s (readLong a s) :=
  (translateAll_grows s (span_ne_nil a (by decide))).andThen fun _ ht => ht.1

/-- A store into a present page, in the course of an access. -/
theorem grows_and_covers_setByte {s t : State} {as : List Long} (h : s.Grows t ∧ t.Covers as) {a : Long}
    (ha : a ∈ as) (v : Byte) : s.Grows (t.setByte a v) ∧ (t.setByte a v).Covers as :=
  ⟨h.1.trans (.setByte h.2 ha v), h.2.setByte a v⟩

theorem writeByte_grows (a : Long) (v : Byte) : EndsGrown id s (writeByte a v s) :=
  (translateAll_grows s (span_ne_nil a (by decide))).andThen fun _ ht =>
    (grows_and_covers_setByte ht (a := a) (by simp) v).1

theorem writeWord_grows (a : Long) (v : Word) : EndsGrown id s (writeWord a v s) :=
  (translateAll_grows s (span_ne_nil a (by decide))).andThen fun _ h0 =>
    have h1 := grows_and_covers_setByte h0 (a := a) (by simp) (v.extractLsb' 8 8)
    (grows_and_covers_setByte h1 (a := a + 1) (by simp) (v.extractLsb' 0 8)).1

theorem writeLong_grows (a v : Long) : EndsGrown id s (writeLong a v s) :=
  (translateAll_grows s (span_ne_nil a (by decide))).andThen fun _ h0 =>
    have h1 := grows_and_covers_setByte h0 (a := a) (by simp) (v.extractLsb' 24 8)
    have h2 := grows_and_covers_setByte h1 (a := a + 1) (by simp) (v.extractLsb' 16 8)
    have h3 := grows_and_covers_setByte h2 (a := a + 2) (by simp) (v.extractLsb' 8 8)
    (grows_and_covers_setByte h3 (a := a + 3) (by simp) (v.extractLsb' 0 8)).1

theorem mmuInitialize_grows : EndsGrown id s (mmuInitialize s) := by
  cases hm : s.mmu with
  | ready st => rw [mmuInitialize_ready hm]; trivial
  | uninit =>
    rcases mmuInitialize_uninit hm with ⟨_, he⟩ | ⟨k, _, _, _, he⟩ <;> rw [he]
    · exact ⟨fun hi => ⟨wf_fresh, hi.2⟩, fun st hs => by simp [hm] at hs⟩
    · exact .of_mmu_ctrl rfl rfl

/-! ## The step -/

theorem readPreDecremented_grows (n : RegNum) : EndsGrown Prod.fst s (readPreDecremented n s) :=
  readByte_grows (preDecrement n s) _

theorem exec_grows (i : Instr) : EndsGrown id s (exec i s) := by
  cases i with
  | abcdReg ry rx => exact .of_mmu_ctrl rfl rfl
  | abcdMem ry rx =>
    exact (readPreDecremented_grows s ry).andThen fun p =>
      (readPreDecremented_grows p.1 rx).andThen fun q =>
        (writeByte_grows q.1 _ _).andThen fun t => .of_mmu_ctrl rfl rfl

theorem ifetch_grows : EndsGrown Prod.fst s (ifetch s) :=
  (readWord_grows s s.pc).andThen fun _ => .of_mmu_ctrl rfl rfl

theorem dispatchOpcode_grows (w : Word) : EndsGrown id s (dispatchOpcode w s) := by
  unfold dispatchOpcode
  cases decodeWord w with
  | none => exact .refl s
  | some i => exact (exec_grows s i).andThen fun _ => .of_mmu_ctrl rfl rfl

theorem step_grows : EndsGrown id s (step s) :=
  (ifetch_grows s).andThen fun p => dispatchOpcode_grows p.1 p.2

/-! ## The host's transactions -/

theorem setReg_grows (g : GeneralReg) (v : Long) : s.Grows (s.setReg g v) := by
  cases g with
  | d n => exact .of_mmu_ctrl rfl rfl
  | a n => exact .of_mmu_ctrl rfl rfl

/-- A control-register write keeps the further registers in their canonical form. -/
theorem cellsWf_ctrlSet {c : ControlRegs} (h : cellsWf c.others) (n : CtrlName) (v : Long) :
    cellsWf (ctrlSet c n v).others := by
  cases n with
  | other k => exact cellsWf_cellsSet h k v
  | vbr | ssp | isp | msp => exact h

theorem setCtrl_grows (n : CtrlName) (v : Long) : s.Grows (s.setCtrl (ctrlSet s.ctrl n v)) :=
  ⟨fun hi => ⟨hi.1, cellsWf_ctrlSet hi.2 n v⟩, fun st hs => ⟨st, hs, fun _ h => h, fun _ h => h⟩⟩

theorem completed_grows {t : State} (h : s.Grows t) : EndsGrown Prod.fst s (completed t) := h

theorem answered_grows {w : Nat} (v : BitVec w) : EndsGrown Prod.fst s (answered v s) := .refl s

theorem transact_grows {r : Request} (hdestroy : r ≠ .mmuDestroy) (hreset : r ≠ .reset) :
    EndsGrown Prod.fst s (transact r s) := by
  cases r with
  | mmuDestroy => exact absurd rfl hdestroy
  | reset => exact absurd rfl hreset
  | mmuInitialize => exact (mmuInitialize_grows s).completed
  | readByte a => exact (readByte_grows s a).replied
  | readWord a => exact (readWord_grows s a).replied
  | readLong a => exact (readLong_grows s a).replied
  | writeByte a v => exact (writeByte_grows s a v).completed
  | writeWord a v => exact (writeWord_grows s a v).completed
  | writeLong a v => exact (writeLong_grows s a v).completed
  | step => exact (step_grows s).completed
  | setReg g v => exact completed_grows s (setReg_grows s g _)
  | setRegWord g k v => exact completed_grows s (setReg_grows s g _)
  | setRegByte g k v => exact completed_grows s (setReg_grows s g _)
  | getCtrl n => exact (answered_grows s _).onCtrl n
  | setCtrl n v => exact (completed_grows s (setCtrl_grows s n v)).onCtrl n
  | setPc | setSr | setFlag | setMask | setTrace => exact completed_grows s (.of_mmu_ctrl rfl rfl)
  | getReg | getRegWord | getRegByte | getPc | getSr | getFlag | getMask | getTrace => exact answered_grows s _
  | lookup w => exact .refl s

end

/-! ## The statements -/

/-- Settles O49: a completed step grows its state, and growing keeps the invariant. -/
theorem stepKeepsTheInvariant : Obligations.StepKeepsTheInvariant := fun s t hi h =>
  ((ends_iff.mp (step_grows s)).1 t h).1 hi

/-- Settles O50: `mmu_destroy` and `reset` leave no store; every other transaction grows the state. -/
theorem transactionsKeepTheInvariant : Obligations.TransactionsKeepTheInvariant := by
  intro r s hi
  by_cases hdestroy : r = .mmuDestroy
  · subst hdestroy
    refine ⟨fun t v h => ?_, fun f h => nomatch h⟩
    cases h
    exact ⟨trivial, hi.2⟩
  by_cases hreset : r = .reset
  · subst hreset
    refine ⟨fun t v h => ?_, fun f h => nomatch h⟩
    cases h
    exact resetSatisfiesTheInvariant
  obtain ⟨hnext, hfault⟩ := ends_iff.mp (transact_grows s hdestroy hreset)
  exact ⟨fun t v h => (hnext (t, v) h).1 hi, fun f h => (hfault f h).1 hi⟩

/-- Settles O25: every transaction but those two grows the state, whether it completes or faults. -/
theorem onlyDestroyAndResetRemovePages : Obligations.OnlyDestroyAndResetRemovePages := by
  intro r s t st hs hdestroy hreset h
  obtain ⟨hnext, hfault⟩ := ends_iff.mp (transact_grows s hdestroy hreset)
  rcases h with ⟨v, h⟩ | ⟨f, h, rfl⟩
  · exact (hnext (t, v) h).2 st hs
  · exact (hfault f h).2 st hs

end Sys2Proof.Machine
end

section
/-! Two runs side by side (20_memory.md R78, R95): from two states that look alike to a program, whatever their tables,
pages and draws, the same operation, where it completes in both, gives states that look alike and the same answer. -/

namespace Sys2Proof.Machine

/-! ## Looking alike -/

section
variable {s t u : State}

theorem State.looksLike.symm (h : s.looksLike t) : t.looksLike s := by
  obtain ⟨⟨hd, ha, hpc, hsr, hctrl, hir⟩, hbytes, hparam⟩ := h
  exact ⟨⟨hd.symm, ha.symm, hpc.symm, hsr.symm, hctrl.symm, hir.symm⟩, fun k => (hbytes k).symm, hparam.symm⟩

theorem State.looksLike.trans (h : s.looksLike t) (g : t.looksLike u) : s.looksLike u := by
  obtain ⟨⟨hd, ha, hpc, hsr, hctrl, hir⟩, hbytes, hparam⟩ := h
  obtain ⟨⟨hd', ha', hpc', hsr', hctrl', hir'⟩, hbytes', hparam'⟩ := g
  exact ⟨⟨hd'.trans hd, ha'.trans ha, hpc'.trans hpc, hsr'.trans hsr, hctrl'.trans hctrl, hir'.trans hir⟩,
    fun k => (hbytes' k).trans (hbytes k), hparam'.trans hparam⟩

end

/-- A state without its MMU and its draws: the registers and the parameter `abcd_v` alone. -/
def State.withoutMemory (s : State) : State := { s with mmu := .uninit, draws := [], drawCount := 0 }

theorem withoutMemory_eq_iff {s t : State} :
    t.withoutMemory = s.withoutMemory ↔ s.sameRegisters t ∧ t.abcdVDiffers = s.abcdVDiffers := by
  simp only [State.sameRegisters, State.withoutMemory, State.mk.injEq]
  tauto

/-- What a program sees: the registers and the parameter as one value, and the bytes. -/
theorem looksLike_iff {s t : State} :
    s.looksLike t ↔ t.withoutMemory = s.withoutMemory ∧ ∀ k, t.byteAt k = s.byteAt k := by
  rw [withoutMemory_eq_iff, State.looksLike]
  tauto

section
variable {s s' : State} (h : s.looksLike s')
include h

/-- An update of registers alone keeps two states alike. -/
theorem State.looksLike.map (f : State → State) (hf : ∀ u, (f u).withoutMemory = f u.withoutMemory)
    (hb : ∀ u k, (f u).byteAt k = u.byteAt k) : (f s).looksLike (f s') := by
  obtain ⟨hregs, hbytes⟩ := looksLike_iff.mp h
  refine looksLike_iff.mpr ⟨?_, fun k => ?_⟩
  · rw [hf, hf, hregs]
  · rw [hb, hb, hbytes]

/-- What is read from the registers alone is the same in two states that look alike. -/
theorem State.looksLike.reads_same {α : Type} (f : State → α) (hf : ∀ u, f u = f u.withoutMemory) : f s' = f s := by
  rw [hf s', hf s, (looksLike_iff.mp h).1]

end

/-! ## Operations run side by side -/

section
variable {α β γ δ : Type} {R : α → β → Prop} {S : γ → δ → Prop}

/-- Where both outcomes are completed, what they hand on is related. -/
def Agree (R : α → β → Prop) (o : Result α) (o' : Result β) : Prop := ∀ x y, o = .next x → o' = .next y → R x y

theorem Agree.andThen {o : Result α} {o' : Result β} {f : α → Result γ} {f' : β → Result δ} (ho : Agree R o o')
    (hf : ∀ x y, R x y → Agree S (f x) (f' y)) : Agree S (andThen o f) (andThen o' f') := by
  intro z w hz hw
  obtain ⟨x, hx, hz⟩ := andThen_eq_next.mp hz
  obtain ⟨y, hy, hw⟩ := andThen_eq_next.mp hw
  exact hf x y (ho x y hx hy) z w hz hw

theorem Agree.next {x : α} {y : β} (h : R x y) : Agree R (.next x) (.next y) := by
  rintro _ _ ⟨⟩ ⟨⟩
  exact h

end

/-- Two states that look alike, with the same answer. -/
def AlikeWithAnswer {γ : Type} (p q : State × γ) : Prop := p.1.looksLike q.1 ∧ q.2 = p.2

/-! ## Translation and the accesses of a step -/

/-- Completed translations show a program nothing. -/
theorem translateAll_looksLike {s t : State} {as : List Long} (ha : as ≠ []) (h : translateAll as s = .next t) :
    s.looksLike t := by
  obtain ⟨st, hm, _, rfl⟩ := translateAll_eq_next ha h
  obtain ⟨_, rfl, _, hl⟩ := touched_facts hm as
  exact hl

/-- A completed byte write, as a program sees it. -/
theorem writeByte_seen {s t : State} {a : Long} {v : Byte} (h : writeByte a v s = .next t) :
    t.withoutMemory = s.withoutMemory ∧ ∀ k, t.byteAt k = if k = a then v else s.byteAt k := by
  obtain ⟨hregs, _, hbytes⟩ := writeByte_bytes h
  have hparam : t.abcdVDiffers = s.abcdVDiffers := (ends_iff.mp (writeByte_keepsParameter rfl a v)).1 t h
  exact ⟨withoutMemory_eq_iff.mpr ⟨hregs, hparam⟩, hbytes⟩

section
variable {s s' : State} (h : s.looksLike s')
include h

theorem translateAll_agree {as : List Long} (ha : as ≠ []) :
    Agree State.looksLike (translateAll as s) (translateAll as s') := fun _ _ ht ht' =>
  (translateAll_looksLike ha ht).symm.trans (h.trans (translateAll_looksLike ha ht'))

theorem readByte_agree (a : Long) : Agree AlikeWithAnswer (readByte a s) (readByte a s') :=
  (translateAll_agree h (span_ne_nil a (by decide))).andThen fun _ _ hl => .next ⟨hl, hl.2.1 a⟩

theorem readWord_agree (a : Long) : Agree AlikeWithAnswer (readWord a s) (readWord a s') :=
  (translateAll_agree h (span_ne_nil a (by decide))).andThen fun _ _ hl =>
    .next ⟨hl, congrArg₂ (· ++ ·) (hl.2.1 a) (hl.2.1 (a + 1))⟩

/-- A byte write leaves the same bytes whichever pages were there: its own page is present when it stores. -/
theorem writeByte_agree (a : Long) (v : Byte) : Agree State.looksLike (writeByte a v s) (writeByte a v s') := by
  intro t t' ht ht'
  obtain ⟨hregs, hbytes⟩ := writeByte_seen ht
  obtain ⟨hregs', hbytes'⟩ := writeByte_seen ht'
  refine looksLike_iff.mpr ⟨?_, fun k => ?_⟩
  · rw [hregs', hregs, (looksLike_iff.mp h).1]
  · rw [hbytes', hbytes, (looksLike_iff.mp h).2]

/-! ## The step -/

theorem readPreDecremented_agree (n : RegNum) :
    Agree AlikeWithAnswer (readPreDecremented n s) (readPreDecremented n s') := by
  have hl := h.map (preDecrement n) (fun _ => rfl) fun _ _ => rfl
  have ha : (preDecrement n s').aReg n = (preDecrement n s).aReg n := hl.reads_same (fun u => u.aReg n) fun _ => rfl
  rw [readPreDecremented, readPreDecremented, ha]
  exact readByte_agree hl _

theorem exec_agree (i : Instr) : Agree State.looksLike (exec i s) (exec i s') := by
  have hx : s'.flag .x = s.flag .x := h.reads_same (fun u => u.flag .x) fun _ => rfl
  cases i with
  | abcdReg ry rx =>
    exact .next (h.map (fun u =>
      (u.setDByte rx (abcdResult (u.dByte rx) (u.dByte ry) (u.flag .x))).setAbcdFlags (u.dByte rx) (u.dByte ry)
        (u.flag .x)) (fun _ => rfl) fun _ _ => rfl)
  | abcdMem ry rx =>
    simp only [exec, execAbcdMem, hx]
    refine (readPreDecremented_agree h ry).andThen fun p p' ⟨hp, hsrc⟩ => ?_
    refine (readPreDecremented_agree hp rx).andThen fun q q' ⟨hq, hdst⟩ => ?_
    have ha : q'.1.aReg rx = q.1.aReg rx := hq.reads_same (fun u => u.aReg rx) fun _ => rfl
    rw [hsrc, hdst, ha]
    exact (writeByte_agree hq _ _).andThen fun _ _ ht =>
      .next (ht.map (fun u => u.setAbcdFlags q.2 p.2 (s.flag .x)) (fun _ => rfl) fun _ _ => rfl)

theorem ifetch_agree : Agree AlikeWithAnswer (ifetch s) (ifetch s') := by
  have hpc : s'.pc = s.pc := h.reads_same State.pc fun _ => rfl
  rw [ifetch, ifetch, hpc]
  refine (readWord_agree h s.pc).andThen fun p _ ⟨hl, hw⟩ => ?_
  rw [hw]
  exact .next ⟨hl.map (fun u => u.setIr p.2) (fun _ => rfl) fun _ _ => rfl, rfl⟩

theorem dispatchOpcode_agree (w : Word) : Agree State.looksLike (dispatchOpcode w s) (dispatchOpcode w s') := by
  unfold dispatchOpcode
  cases decodeWord w with
  | none => exact fun _ _ hn => nomatch hn
  | some i =>
    exact (exec_agree h i).andThen fun _ _ ht => .next (ht.map (advancePc i.length) (fun _ => rfl) fun _ _ => rfl)

theorem step_agree : Agree State.looksLike (step s) (step s') :=
  (ifetch_agree h).andThen fun p _ ⟨hl, hw⟩ => hw ▸ dispatchOpcode_agree hl p.2

end

/-- Settles O52, through the rule of every operation a step is built from. -/
theorem pagesAreInvisibleToPrograms : Obligations.PagesAreInvisibleToPrograms := fun _ _ t t' hl h h' =>
  step_agree hl t t' h h'

end Sys2Proof.Machine
end

section
/-! The laws of translation and of the six accesses (20_memory.md R74 to R87, R92): an access is its translations and
then, with no further draw, its reads or stores; the statements about them follow. -/

namespace Sys2Proof.Machine

/-! ## The rules of an access -/

section
variable {α : Type} {s t : State} {st : Store} {as : List Long}

theorem access_uninit (hm : s.mmu = .uninit) (ha : as ≠ []) (f : State → Result α) :
    andThen (translateAll as s) f = .refused .mmuNotInitialized := by
  rw [translateAll_uninit hm ha, andThen_refused]

/-- An access to addresses that are present is its reads or stores alone. -/
theorem access_covered (h : s.Covers as) (f : State → Result α) : andThen (translateAll as s) f = f s := by
  obtain ⟨st, hm, hc⟩ := h
  rw [translateAll_covered hm hc, andThen_next]

/-- An access completes exactly when its draws are granted. -/
theorem access_completes_iff (hm : s.mmu = .ready st) (f : State → α) :
    (∃ x, andThen (translateAll as s) (fun u => .next (f u)) = .next x) ↔ s.granted (st.drawsForAll as) := by
  constructor
  · rintro ⟨x, h⟩
    obtain ⟨u, hu, _⟩ := andThen_eq_next.mp h
    rcases translateAll_ready hm as with ⟨hg, _⟩ | ⟨_, _, _, he, _⟩
    · exact hg
    · rw [he] at hu; cases hu
  · exact fun hg => ⟨_, by rw [translateAll_granted hm hg, andThen_next]⟩

/-- An access takes its draws and no other; `state` picks the state it leaves from what it hands on. -/
theorem access_drawAt (hm : s.mmu = .ready st) {f : State → α} (state : α → State)
    (hf : ∀ u k, (state (f u)).drawAt k = u.drawAt k) {x : α}
    (h : andThen (translateAll as s) (fun u => .next (f u)) = .next x) (k : Nat) :
    (state x).drawAt k = s.drawAt (st.drawsForAll as + k) := by
  rw [translateAll_granted hm ((access_completes_iff hm f).mp ⟨x, h⟩), andThen_next] at h
  cases h
  rw [hf, drawAt_setMmu, drawAt_dropDraws]

/-- An access faults only in its translations, so a fault leaves the registers and bytes as they were, and a store the
old one extends to. -/
theorem access_eq_fault {f : State → α} {r : Fault}
    (h : andThen (translateAll as s) (fun u => .next (f u)) = .fault r) :
    ∃ b ∈ as, ∃ t, r = .allocFailure (some b) t ∧ s.looksLike t ∧ (s.mmu.wf → t.mmu.wf) ∧
      ∀ st, s.mmu = .ready st → ∃ st', t.mmu = .ready st' ∧ (∀ d ∈ st.tables, d ∈ st'.tables) ∧
        ∀ p ∈ st.pages, p ∈ st'.pages := by
  obtain h | ⟨u, _, hu⟩ := andThen_eq_fault.mp h
  · obtain ⟨st, hm, b, hb, hd⟩ := translateAll_eq_fault h
    obtain ⟨t, _, rfl, hl, _, _, hwf⟩ := hd.facts hm
    exact ⟨b, hb, t, rfl, hl, hwf, (hd.grows hm).2⟩
  · cases hu

theorem covers_of_translateAll (ha : as ≠ []) (h : translateAll as s = .next t) : t.Covers as :=
  ((ends_iff.mp (translateAll_grows s ha)).1 t h).2

end

/-! ## Translation -/

/-- An address is its page's first address and its offset (R62). -/
theorem toNat_eq_page_add_offset (a : Long) : a.toNat = 4096 * pageKey (pageOf a) + (pageOffset a).toNat := by
  have := a.isLt
  simp only [pageKey, pageOf, dirIndex, tblIndex, pageOffset, BitVec.extractLsb'_toNat, Nat.shiftRight_eq_div_pow]
  omega

theorem translate_eq_next {a : Long} {s t : State} {l : Location} (h : translate a s = .next (t, l)) :
    ∃ st, s.mmu = .ready st ∧ t = (s.dropDraws (st.drawsFor a)).setMmu (.ready (st.touch a)) ∧ l = splitAddress a := by
  cases hm : s.mmu with
  | uninit => rw [translate_uninit hm] at h; cases h
  | ready st =>
    rcases translate_ready hm a with ⟨_, he⟩ | ⟨_, he, _⟩ <;> rw [he] at h <;> cases h
    exact ⟨st, rfl, rfl, rfl⟩

/-- A translation of a present location changes nothing. -/
theorem translate_present {a : Long} {s : State} {st : Store} (hm : s.mmu = .ready st)
    (ht : dirIndex a ∈ st.tables) (hp : pageOf a ∈ st.pages) : translate a s = .next (s, splitAddress a) := by
  simp [translate, ensureTable, ensurePage, hm, ht, hp]

/-- Settles O17: the location is the split of the address, and the first translation leaves it present. -/
theorem translateIsStableAndDistinct : Obligations.TranslateIsStableAndDistinct := by
  refine ⟨fun a s t l h => ?_, fun a b h => ⟨congrArg Prod.fst h, congrArg Prod.snd h, ?_⟩, fun a b h => h,
    fun a b h => ?_⟩
  · obtain ⟨st, _, rfl, rfl⟩ := translate_eq_next h
    exact ⟨rfl, translate_present (st := st.touch a) rfl (by simp) (by simp)⟩
  · have ha := toNat_eq_page_add_offset a
    have hb := toNat_eq_page_add_offset b
    rw [h] at ha
    simp only [splitAddress]
    omega
  · rw [← address_splitAddress a, h, address_splitAddress]

/-! ## Draws and faults -/

/-- Settles O18: each access is its translations, then reads or stores that take no draw. -/
theorem accessTakesExactlyItsDraws : Obligations.AccessTakesExactlyItsDraws := by
  intro s st a hm
  refine ⟨access_completes_iff hm _, access_completes_iff hm _, access_completes_iff hm _,
    fun v => access_completes_iff hm _, fun v => access_completes_iff hm _, fun v => access_completes_iff hm _,
    fun t v => access_drawAt hm Prod.fst ?_, fun t v => access_drawAt hm Prod.fst ?_,
    fun t v => access_drawAt hm Prod.fst ?_, fun t v => access_drawAt hm id ?_, fun t v => access_drawAt hm id ?_,
    fun t v => access_drawAt hm id ?_⟩
  all_goals simp

/-- Settles O24: whichever access it is, the fault is one of its translations. -/
theorem failedAccessWritesNothing : Obligations.FailedAccessWritesNothing := by
  rintro s a n r (⟨rfl, h | ⟨v, h⟩⟩ | ⟨rfl, h | ⟨v, h⟩⟩ | ⟨rfl, h | ⟨v, h⟩⟩) <;> exact access_eq_fault h

/-! ## Reads -/

/-- A number one byte longer, most significant byte first (R79). -/
theorem toNat_append_byte {w : Nat} (x : BitVec w) (y : Byte) : (x ++ y).toNat = x.toNat * 256 + y.toNat := by
  rw [BitVec.toNat_append, ← Nat.shiftLeft_add_eq_or_of_lt y.isLt, Nat.shiftLeft_eq]

/-- Settles O19: the bytes are those before the read, appended most significant first. -/
theorem readsAreBigEndian : Obligations.ReadsAreBigEndian := by
  refine fun s t a => ⟨fun v h => ?_, fun v h => ?_, fun v h => ?_⟩
  · obtain ⟨_, _, _, _, rfl⟩ := readByte_eq_next h
    rfl
  · obtain ⟨_, _, _, _, rfl⟩ := readWord_eq_next h
    rw [toNat_append_byte]
  · obtain ⟨_, _, _, _, rfl⟩ := readLong_eq_next h
    simp only [toNat_append_byte]
    omega

/-- A completed read leaves a state in which its addresses are present and that a program cannot tell from the one
before. -/
theorem read_eq_next {α : Type} {s t : State} {as : List Long} (ha : as ≠ []) {f : State → α} {v : α}
    (h : andThen (translateAll as s) (fun u => .next (u, f u)) = .next (t, v)) :
    s.looksLike t ∧ andThen (translateAll as t) (fun u => .next (u, f u)) = .next (t, v) := by
  obtain ⟨u, hu, huv⟩ := andThen_eq_next.mp h
  obtain ⟨rfl, rfl⟩ : u = t ∧ f u = v := by simpa using huv
  exact ⟨translateAll_looksLike ha hu, access_covered (covers_of_translateAll ha hu) _⟩

/-- Settles O20: the first read leaves its addresses present, so the second changes nothing. -/
theorem readsAreIdempotent : Obligations.ReadsAreIdempotent := fun _ _ a =>
  ⟨fun _ => read_eq_next (span_ne_nil a (by decide)), fun _ => read_eq_next (span_ne_nil a (by decide)),
    fun _ => read_eq_next (span_ne_nil a (by decide))⟩

section
variable {s : State} {a : Long}

theorem readByte_covered (h : s.Covers (span a 1)) : readByte a s = .next (s, s.byteAt a) := access_covered h _

theorem readWord_covered (h : s.Covers (span a 2)) : readWord a s = .next (s, s.byteAt a ++ s.byteAt (a + 1)) :=
  access_covered h _

theorem readLong_covered (h : s.Covers (span a 4)) :
    readLong a s = .next (s, s.byteAt a ++ s.byteAt (a + 1) ++ s.byteAt (a + 2) ++ s.byteAt (a + 3)) :=
  access_covered h _

/-- A narrower access inside the addresses of a wider one finds them present. -/
theorem State.Covers.inside {b : Long} {k m n : Nat} (h : s.Covers (span a n)) (hb : b = a + BitVec.ofNat 32 k)
    (hk : k + m ≤ n) : s.Covers (span b m) := by
  obtain ⟨st, hm, hc⟩ := h
  refine ⟨st, hm, fun c hcb => hc c ?_⟩
  obtain ⟨i, hi, rfl⟩ := List.mem_map.mp hcb
  have hi : i < m := List.mem_range.mp hi
  refine List.mem_map.mpr ⟨k + i, List.mem_range.mpr (by omega), ?_⟩
  rw [hb, BitVec.ofNat_add, add_assoc]

end

/-! ## Writes -/

section
variable {s t : State} {a : Long}

/-- The two bytes a completed word write leaves, and the rest. -/
theorem writeWord_byteAt {v : Word} (h : writeWord a v s = .next t) :
    t.byteAt a = v.extractLsb' 8 8 ∧ t.byteAt (a + 1) = v.extractLsb' 0 8 ∧
      ∀ k, k ≠ a → k ≠ a + 1 → t.byteAt k = s.byteAt k := by
  obtain ⟨_, _, hb⟩ := writeWord_bytes h
  exact ⟨by simp [hb], by simp [hb], fun k h0 h1 => by rw [hb, if_neg h1, if_neg h0]⟩

/-- The four bytes a completed long write leaves, and the rest. -/
theorem writeLong_byteAt {v : Long} (h : writeLong a v s = .next t) :
    t.byteAt a = v.extractLsb' 24 8 ∧ t.byteAt (a + 1) = v.extractLsb' 16 8 ∧
      t.byteAt (a + 2) = v.extractLsb' 8 8 ∧ t.byteAt (a + 3) = v.extractLsb' 0 8 ∧
      ∀ k, k ≠ a → k ≠ a + 1 → k ≠ a + 2 → k ≠ a + 3 → t.byteAt k = s.byteAt k := by
  obtain ⟨_, _, hb⟩ := writeLong_bytes h
  refine ⟨by simp [hb], by simp [hb], by simp [hb], by simp [hb], fun k h0 h1 h2 h3 => ?_⟩
  rw [hb, if_neg h3, if_neg h2, if_neg h1, if_neg h0]

end

/-- Settles O21, by what each write leaves at every address. -/
theorem writesStoreTheirBytes : Obligations.WritesStoreTheirBytes := by
  refine fun s t a => ⟨fun v h => ?_, fun v h => ⟨(writeWord_bytes h).1, writeWord_byteAt h⟩,
    fun v h => ⟨(writeLong_bytes h).1, writeLong_byteAt h⟩⟩
  obtain ⟨hregs, _, hbytes⟩ := writeByte_bytes h
  exact ⟨hregs, hbytes⟩

/-! ## Reads after a write -/

section
variable {s t : State} {a : Long}

theorem readByte_writeByte {v : Byte} (h : writeByte a v s = .next t) : readByte a t = .next (t, v) := by
  obtain ⟨_, hc, hb⟩ := writeByte_bytes h
  rw [readByte_covered hc, hb, if_pos rfl]

theorem readWord_writeWord {v : Word} (h : writeWord a v s = .next t) : readWord a t = .next (t, v) := by
  obtain ⟨_, hc, _⟩ := writeWord_bytes h
  obtain ⟨h0, h1, _⟩ := writeWord_byteAt h
  rw [readWord_covered hc, h0, h1, BitVec.extractLsb'_append_extractLsb']

end

/-- Adjacent bits put together again. -/
theorem extractLsb'_append_next {w : Nat} (x : BitVec w) (lo n m : Nat) :
    x.extractLsb' (lo + m) n ++ x.extractLsb' lo m = x.extractLsb' lo (n + m) :=
  BitVec.extractLsb'_append_extractLsb'_eq_extractLsb' rfl

theorem readLong_writeLong {s t : State} {a v : Long} (h : writeLong a v s = .next t) :
    readLong a t = .next (t, v) := by
  obtain ⟨_, hc, _⟩ := writeLong_bytes h
  obtain ⟨h0, h1, h2, h3, _⟩ := writeLong_byteAt h
  rw [readLong_covered hc, h0, h1, h2, h3, extractLsb'_append_next v 16 8 8,
    extractLsb'_append_next v 8 16 8, extractLsb'_append_next v 0 24 8, BitVec.extractLsb'_eq_self]

/-- Settles O22, width by width. -/
theorem writeThenReadReturnsTheValue : Obligations.WriteThenReadReturnsTheValue := fun _ _ _ =>
  ⟨fun _ => readByte_writeByte, fun _ => readWord_writeWord, fun _ => readLong_writeLong⟩

/-- Settles O23: the narrow reads' addresses are among those the write left present. -/
theorem narrowReadsSeeAWideWrite : Obligations.NarrowReadsSeeAWideWrite := by
  intro s t a v h
  obtain ⟨_, hc, _⟩ := writeLong_bytes h
  obtain ⟨h0, h1, h2, h3, _⟩ := writeLong_byteAt h
  replace hc : t.Covers (span a 4) := hc
  have e0 : a = a + BitVec.ofNat 32 0 := by simp
  have e1 : a + 1 = a + BitVec.ofNat 32 1 := rfl
  have e2 : a + 2 = a + BitVec.ofNat 32 2 := rfl
  have e12 : a + 1 + 1 = a + 2 := by rw [add_assoc]; rfl
  have e23 : a + 2 + 1 = a + 3 := by rw [add_assoc]; rfl
  refine ⟨?_, ?_, ?_, ?_⟩
  · rw [readByte_covered (hc.inside e0 (by decide)), h0]
  · rw [readWord_covered (hc.inside e0 (by decide)), h0, h1, extractLsb'_append_next v 16 8 8]
  · rw [readWord_covered (hc.inside (k := 1) e1 (by decide)), e12, h1, h2, extractLsb'_append_next v 8 8 8]
  · rw [readWord_covered (hc.inside (k := 2) e2 (by decide)), e23, h2, h3, extractLsb'_append_next v 0 8 8]

/-- Settles O26: the fetch reads the word the store left, PC apart from the same state. -/
theorem fetchSeesTheLatestStore : Obligations.FetchSeesTheLatestStore := by
  intro s t a w h
  obtain ⟨_, hc, _⟩ := writeWord_bytes h
  obtain ⟨h0, h1, _⟩ := writeWord_byteAt h
  have hr : readWord a (t.setPc a) = .next (t.setPc a, w) := by
    rw [readWord_covered (s := t.setPc a) hc, byteAt_setPc, byteAt_setPc, h0, h1,
      BitVec.extractLsb'_append_extractLsb']
  rw [ifetch, setPc_pc, hr, andThen_next]

/-! ## Refusals -/

/-- Settles O16: each of them begins with a translation. -/
theorem nothingReachesMemoryBeforeInitialize : Obligations.NothingReachesMemoryBeforeInitialize := by
  intro s hm a
  have hn {n : Nat} (h : 0 < n) := span_ne_nil a h
  exact ⟨translate_uninit hm a, readByte_uninit hm a, readWord_uninit hm a, access_uninit hm (hn (by decide)) _,
    fun v => access_uninit hm (hn (by decide)) _, fun v => access_uninit hm (hn (by decide)) _,
    fun v => access_uninit hm (hn (by decide)) _, fun ry rx => execAbcdMem_uninit ry rx hm, step_uninit hm⟩

/-- No instruction is refused while the MMU is `READY`. -/
theorem exec_ne_refused {s : State} {st : Store} (hm : s.mmu = .ready st) (i : Instr) (r : Refusal) :
    exec i s ≠ .refused r := by
  cases i with
  | abcdReg ry rx => exact fun h => nomatch h
  | abcdMem ry rx =>
    by_cases hg : s.granted (st.drawsForAll [sourceAddress ry s, destAddress ry rx s])
    · rw [execAbcdMem_granted ry rx hm hg]; exact fun h => nomatch h
    · obtain ⟨_, he, _⟩ := execAbcdMem_denied ry rx hm hg
      rw [he]; exact fun h => nomatch h

theorem step_ne_refused {s : State} {st : Store} (hm : s.mmu = .ready st) (r : Refusal) : step s ≠ .refused r := by
  intro h
  rcases step_ready hm with ⟨_, ⟨_, he⟩ | ⟨i, _, he⟩⟩ | ⟨_, _, _, he, _⟩ <;> rw [he] at h
  · cases h
  · rcases andThen_eq_refused.mp h with h | ⟨_, _, h⟩
    · exact exec_ne_refused (fetched_mmu s st) i r h
    · cases h
  · cases h

/-- Settles O44: an `UNINIT` MMU refuses the fetch, and a `READY` one refuses nothing of a step. -/
theorem stepRefusedExactlyBeforeInitialize : Obligations.StepRefusedExactlyBeforeInitialize := by
  intro s r
  cases hm : s.mmu with
  | uninit => rw [step_uninit hm]; simp [eq_comm]
  | ready st => simp [step_ne_refused hm r]

end Sys2Proof.Machine
end

section
/-! The decoder and the encoder are inverse (30_encoding.md R113, R116, R119). An opcode is its six fields: the mask of
R142 fixes the line, bit 8, bits 7 to 4 and the mode bit, and the two register fields are the operands. So a word
decodes to an instruction exactly when it is that instruction's encoding, and by R119 exactly when its value is the
slot. -/

namespace Sys2Proof

/-! ## The fields of an opcode -/

/-- The handler of an instruction's form. -/
def Instr.handler : Instr → Handler
  | .abcdReg _ _ => .abcdReg
  | .abcdMem _ _ => .abcdMem

/-- What the mask of R142 leaves of a handler's opcodes. -/
def Handler.pattern : Handler → Word
  | .abcdReg => 0xC100#16
  | .abcdMem => 0xC108#16

/-- The fixed fields and the mode bit of a form's pattern (R113). -/
theorem Instr.pattern_fields (i : Instr) :
    i.handler.pattern.extractLsb' 12 4 = 0b1100#4 ∧ i.handler.pattern.extractLsb' 8 1 = 1#1 ∧
      i.handler.pattern.extractLsb' 4 4 = 0b0000#4 ∧ i.handler.pattern.extractLsb' 3 1 = i.modeBit := by
  cases i <;> simp [Instr.handler, Handler.pattern, Instr.modeBit]

/-- The handler of a slot is the one whose pattern the masked opcode is. -/
theorem handlerOf_eq_some {w : Word} {h : Handler} : handlerOf w = some h ↔ w &&& 0xF1F8#16 = h.pattern := by
  unfold handlerOf
  cases h with
  | abcdReg => split_ifs <;> simp_all [Handler.pattern]
  | abcdMem => split_ifs <;> simp_all [Handler.pattern]

/-- Where the mask is all ones, a masked word's field is the word's own. -/
theorem extractLsb'_eq_of_and_eq {w m v : Word} (h : w &&& m = v) {lo n : Nat}
    (hm : m.extractLsb' lo n = BitVec.allOnes n) : w.extractLsb' lo n = v.extractLsb' lo n := by
  rw [← h, BitVec.extractLsb'_and, hm, BitVec.and_allOnes]

/-- An opcode is its six fields put together (R113). -/
theorem fields_append (w : Word) :
    w.extractLsb' 12 4 ++ w.extractLsb' 9 3 ++ w.extractLsb' 8 1 ++ w.extractLsb' 4 4 ++ w.extractLsb' 3 1 ++
      w.extractLsb' 0 3 = w := by
  rw [Machine.extractLsb'_append_next w 9 4 3, Machine.extractLsb'_append_next w 8 7 1,
    Machine.extractLsb'_append_next w 4 8 4, Machine.extractLsb'_append_next w 3 12 1,
    Machine.extractLsb'_append_next w 0 13 3, BitVec.extractLsb'_eq_self]

/-! ## The fields of an encoding -/

@[simp] theorem ryField_encodeWord (i : Instr) : ryField (encodeWord i) = i.sourceReg :=
  congrArg BitVec.toFin BitVec.extractLsb'_append_eq_right

@[simp] theorem rxField_encodeWord (i : Instr) : rxField (encodeWord i) = i.destReg := by
  have h : (encodeWord i).extractLsb' 9 3 = BitVec.ofFin i.destReg := by
    unfold encodeWord
    iterate 4 rw [BitVec.extractLsb'_append_eq_of_le (by decide)]
    exact BitVec.extractLsb'_append_eq_right
  rw [rxField, h]

/-- The mask keeps the fixed fields and the mode bit, and clears the register fields. -/
theorem encodeWord_and_mask (i : Instr) : encodeWord i &&& 0xF1F8#16 = i.handler.pattern := by
  have hm : 0xF1F8#16 = 0xF#4 ++ 0#3 ++ 1#1 ++ 0xF#4 ++ 1#1 ++ 0#3 := by decide
  rw [encodeWord, hm]
  iterate 5 rw [BitVec.and_append]
  cases i <;> simp [Instr.handler, Handler.pattern, Instr.modeBit]

/-- The encoding of an instruction is the one word with its form's pattern and its operands' fields. -/
theorem eq_encodeWord_iff {w : Word} {i : Instr} :
    w = encodeWord i ↔
      w &&& 0xF1F8#16 = i.handler.pattern ∧ ryField w = i.sourceReg ∧ rxField w = i.destReg := by
  constructor
  · rintro rfl
    exact ⟨encodeWord_and_mask i, ryField_encodeWord i, rxField_encodeWord i⟩
  · rintro ⟨hmask, hry, hrx⟩
    have hline := extractLsb'_eq_of_and_eq hmask (lo := 12) (n := 4) (by decide)
    have hbit8 := extractLsb'_eq_of_and_eq hmask (lo := 8) (n := 1) (by decide)
    have hzero := extractLsb'_eq_of_and_eq hmask (lo := 4) (n := 4) (by decide)
    have hmode := extractLsb'_eq_of_and_eq hmask (lo := 3) (n := 1) (by decide)
    obtain ⟨pline, pbit8, pzero, pmode⟩ := i.pattern_fields
    rw [← fields_append w, hline.trans pline, hbit8.trans pbit8, hzero.trans pzero, hmode.trans pmode, encodeWord,
      ← hry, ← hrx]
    rfl

/-! ## Decoding and encoding one word -/

/-- A word decodes to the instruction whose form its masked value names and whose operands its fields name. -/
theorem decodeWord_eq_some {w : Word} {i : Instr} :
    decodeWord w = some i ↔
      w &&& 0xF1F8#16 = i.handler.pattern ∧ ryField w = i.sourceReg ∧ rxField w = i.destReg := by
  rw [decodeWord, Option.map_eq_some_iff]
  constructor
  · rintro ⟨h, hh, rfl⟩
    rw [handlerOf_eq_some] at hh
    cases h <;> exact ⟨hh, rfl, rfl⟩
  · rintro ⟨hmask, hry, hrx⟩
    refine ⟨i.handler, handlerOf_eq_some.mpr hmask, ?_⟩
    cases i <;> simp_all [withOperands, Instr.handler, Instr.sourceReg, Instr.destReg]

/-- A word decodes to an instruction exactly when it is the instruction's encoding. -/
theorem decodeWord_eq_some_iff_eq_encodeWord {w : Word} {i : Instr} : decodeWord w = some i ↔ w = encodeWord i :=
  decodeWord_eq_some.trans eq_encodeWord_iff.symm

@[simp] theorem decodeWord_encodeWord (i : Instr) : decodeWord (encodeWord i) = some i :=
  decodeWord_eq_some_iff_eq_encodeWord.mpr rfl

/-- The encoder gives the slot of R119. -/
theorem toNat_encodeWord (i : Instr) : (encodeWord i).toNat = i.slot := by
  cases i with
  | abcdReg ry rx => exact (Laws.EncodesItsSlot.abcdReg ry rx).1
  | abcdMem ry rx => exact (Laws.EncodesItsSlot.abcdMem ry rx).1

/-- A word decodes to an instruction exactly when its value is the instruction's slot. -/
theorem decodeWord_eq_some_iff_toNat {w : Word} {i : Instr} : decodeWord w = some i ↔ w.toNat = i.slot := by
  rw [decodeWord_eq_some_iff_eq_encodeWord, ← toNat_encodeWord, BitVec.toNat_inj]

/-- The lookup answers an entry exactly where the word decodes: both read the slot's handler. -/
theorem isSome_lookup (w : Word) : (lookup w).isSome = (decodeWord w).isSome := by
  rw [lookup, decodeWord, Option.isSome_map, Option.isSome_map]

/-! ## Decoding bytes -/

/-- The two bytes of a word decode as the word does, and what follows them is left. -/
theorem decode_bytesOfWord_append {w : Word} {i : Instr} (h : decodeWord w = some i) (rest : List Byte) :
    decode (bytesOfWord w ++ rest) = .ok (i, rest) := by
  have hw : wordOfBytes (w.extractLsb' 8 8) (w.extractLsb' 0 8) = w := BitVec.extractLsb'_append_extractLsb'
  simp [bytesOfWord, decode, hw, h]

/-! ## The statements -/

/-- Settles O1: the bytes of an encoding are those of its word, and the word decodes back. -/
theorem encodedInstructionDecodesBack : Obligations.EncodedInstructionDecodesBack :=
  fun i rest => decode_bytesOfWord_append (decodeWord_encodeWord i) rest

/-- Settles O2: a word that decodes has every field of the encoding. -/
theorem decodedOpcodeEncodesBack : Obligations.DecodedOpcodeEncodesBack :=
  fun _ _ h => (decodeWord_eq_some_iff_eq_encodeWord.mp h).symm

/-- Settles O3: the two values are the slots of the two forms. -/
theorem presentSlotsAreTheAbcdSlots : Obligations.PresentSlotsAreTheAbcdSlots :=
  fun w => ⟨fun _ _ => decodeWord_eq_some_iff_toNat, fun _ _ => decodeWord_eq_some_iff_toNat,
    by rw [isSome_lookup]⟩

/-- Settles O4: the first four are encodings, and no pattern fits the other five. -/
theorem specOpcodesDecode : Obligations.SpecOpcodesDecode := by
  unfold Obligations.SpecOpcodesDecode
  decide

end Sys2Proof
end

section
/-! The fetch and the dispatch of a step (40_fetch_dispatch.md R140 to R146): where the draws of the fetch are granted,
a step is the dispatch of the word at PC from the fetched state; dispatching is `exec` and then PC moved on by 2, or
`NoInstruction`; and `exec` itself moves neither PC nor IR. -/

namespace Sys2Proof.Machine

/-! ## The lookup -/

/-- The lookup answers with the handler of the slot. -/
theorem lookup_map_handler (w : Word) : (lookup w).map Entry.handler = handlerOf w := by
  rw [lookup, Option.map_map]
  exact Option.map_id'

theorem lookup_eq_none {w : Word} : lookup w = none ↔ handlerOf w = none := by rw [lookup, Option.map_eq_none_iff]

/-- Settles O5: the entry's handler is the one whose pattern the masked opcode is. -/
theorem lookupFollowsTheMasks : Obligations.LookupFollowsTheMasks := by
  refine ⟨fun _ _ => rfl, fun w hreg => ?_, fun w hmem => ?_, fun w hreg hmem => ?_, by decide, by decide⟩
  · rw [lookup_map_handler, (handlerOf_eq_some (h := .abcdReg)).mpr hreg]
  · rw [lookup_map_handler, (handlerOf_eq_some (h := .abcdMem)).mpr hmem]
  · rw [lookup_eq_none, handlerOf, if_neg hreg, if_neg hmem]

/-! ## Decoding the opcode -/

/-- Every word that decodes has ABCD's fixed fields (30_encoding.md R113, R120). -/
theorem and_mask_of_decodeWord {w : Word} {i : Instr} (h : decodeWord w = some i) :
    w &&& 0xF1F0#16 = 0xC100#16 := by
  obtain ⟨hmask, _, _⟩ := decodeWord_eq_some.mp h
  have hm : 0xF1F0#16 = 0xF1F8#16 &&& 0xF1F0#16 := by decide
  rw [hm, ← BitVec.and_assoc, hmask]
  cases i.handler <;> decide

theorem decodeWord_eq_none_of_mask {w : Word} (h : w &&& 0xF1F0#16 ≠ 0xC100#16) : decodeWord w = none :=
  Option.eq_none_iff_forall_ne_some.mpr fun _ hi => h (and_mask_of_decodeWord hi)

/-- Two bytes decode as the word they form, and nothing is left. -/
theorem decode_pair {hi lo : Byte} {i : Instr} : decode [hi, lo] = .ok (i, []) ↔ decodeWord (hi ++ lo) = some i := by
  rw [decode, wordOfBytes]
  cases decodeWord (hi ++ lo) <;> simp

/-! ## The dispatch -/

section
variable {s t : State} {w : Word} {i : Instr}

/-- An absent slot: `NoInstruction` with the state as it stands (R143). -/
theorem dispatchOpcode_absent (h : decodeWord w = none) : dispatchOpcode w s = .fault (.noInstruction w s) := by
  rw [dispatchOpcode, h]; rfl

/-- A present slot: the instruction, and then PC moved past it (R144, R145). -/
theorem dispatchOpcode_present (h : decodeWord w = some i) :
    dispatchOpcode w s = andThen (exec i s) fun t => .next (advancePc 2 t) := by
  simp only [dispatchOpcode, h, length_eq_two]

/-- An instruction moves neither PC nor IR: only the step does (41_abcd.md R173). -/
theorem exec_keepsPcAndIr (h : exec i s = .next t) : t.pc = s.pc ∧ t.ir = s.ir := by
  cases i with
  | abcdReg ry rx => cases h; exact ⟨rfl, rfl⟩
  | abcdMem ry rx =>
    obtain ⟨st, hm, hg⟩ := execAbcdMem_eq_next ry rx h
    rw [execAbcdMem_granted ry rx hm hg] at h
    cases h
    exact ⟨rfl, rfl⟩

end

/-! ## The fetch -/

section
variable {s t : State} {st : Store}

/-- A fetch completes as the word read at PC does, then with IR written. -/
theorem ifetch_eq_next {w : Word} :
    ifetch s = .next (t, w) ↔ ∃ u, readWord s.pc s = .next (u, w) ∧ t = u.setIr w := by
  rw [ifetch, andThen_eq_next]
  constructor
  · rintro ⟨⟨u, v⟩, hu, h⟩
    cases h
    exact ⟨u, hu, rfl⟩
  · rintro ⟨u, hu, rfl⟩
    exact ⟨(u, w), hu, rfl⟩

section
variable (hm : s.mmu = .ready st)
include hm

theorem ifetch_granted (hg : s.granted (st.drawsForAll (span s.pc 2))) :
    ifetch s = .next (fetched s st, s.byteAt s.pc ++ s.byteAt (s.pc + 1)) := by
  rw [ifetch, readWord_granted hm hg]; rfl

/-- A refused draw ends the fetch at one of its two addresses. -/
theorem ifetch_denied (hg : ¬ s.granted (st.drawsForAll (span s.pc 2))) :
    ∃ b t, ifetch s = .fault (.allocFailure (some b) t) ∧ (b = s.pc ∨ b = s.pc + 1) ∧ s.looksLike t := by
  obtain ⟨b, hb, r, he, hd⟩ := (ifetch_ready hm).resolve_left fun h => hg h.1
  obtain ⟨t, _, rfl, hl, _⟩ := hd.facts hm
  exact ⟨b, t, he, by simpa using hb, hl⟩

/-- With its fetch granted, a step dispatches the word at PC from the fetched state. -/
theorem step_granted (hg : s.granted (st.drawsForAll (span s.pc 2))) :
    step s = dispatchOpcode (s.byteAt s.pc ++ s.byteAt (s.pc + 1)) (fetched s st) := by
  rw [step, ifetch_granted hm hg, andThen_next]

end

end

/-! ## The statements -/

/-- Settles O39: the word read's law at PC, with IR latched. -/
theorem fetchReadsTheWordAtPc : Obligations.FetchReadsTheWordAtPc := fun s st hm =>
  ⟨fun _ _ => ifetch_eq_next,
    fun hg => ⟨fetched s st, _, ifetch_granted hm hg, toNat_append_byte _ _, fetched_ir s st, fetched_looksLike hm,
      fetched_mmu s st⟩,
    ifetch_denied hm⟩

/-- Settles O40: the state `u` is the fetched one, and the step dispatches from it. -/
theorem stepRunsTheDecodedInstruction : Obligations.StepRunsTheDecodedInstruction := by
  intro s st i hm hg hdec
  have hstep := (step_granted hm hg).trans (dispatchOpcode_present (decode_pair.mp hdec))
  refine ⟨fetched s st, rfl, fun t h => ?_, fun r h => ?_, fun r h => ?_⟩
  · rw [hstep, h]; rfl
  · rw [hstep, h, andThen_fault]
  · rw [hstep, h, andThen_refused]

/-- Settles O41: a word outside the mask has no slot, and the fault carries the fetched state. -/
theorem absentOpcodeFaults : Obligations.AbsentOpcodeFaults := by
  rintro s st _ hm hg rfl hmask
  exact ⟨fetched s st, (step_granted hm hg).trans (dispatchOpcode_absent (decodeWord_eq_none_of_mask hmask)),
    fetched_ir s st, fetched_looksLike hm⟩

/-- Settles O42: the fetch latches IR, the instruction keeps PC and IR, and then PC moves on. -/
theorem stepAdvancesPcByTwo : Obligations.StepAdvancesPcByTwo := by
  intro s t h
  obtain ⟨st, i, u, _, _, _, hexec, rfl⟩ := step_eq_next h
  obtain ⟨hpc, hir⟩ := exec_keepsPcAndIr hexec
  exact ⟨congrArg (· + 2) (hpc.trans (fetched_pc s st)), hir.trans (fetched_ir s st)⟩

end Sys2Proof.Machine
end

section
/-! The decimal adder (41_abcd.md R161 to R164, R172). Bits 7 and 3 of `bc` and `dc` are carries of an addition, so the
correction is 6 in each digit that carried, in binary or in decimal; for valid operands that makes the result the
decimal sum, and a chain of such sums adds numbers of any length. -/

namespace Sys2Proof.Machine

/-! ## The carries -/

section
variable (dst src : Byte) (x : Bool)

theorem toNat_abcdSum : (abcdSum dst src x).toNat = (dst.toNat + src.toNat + x.toNat) % 256 := by
  have hx := x.toNat_le
  simp only [abcdSum, BitVec.toNat_add, BitVec.toNat_setWidth, BitVec.toNat_ofBool]
  omega

/-- `bc` holds the binary carries out of bits 3 and 7: a sum bit is the operands' bits and the carry in, exclusively,
and from it R161's expression recovers the majority of the three, which is the carry out. -/
theorem getLsbD_abcdBinaryCarry {j : Nat} (hj : j = 3 ∨ j = 7) :
    (abcdBinaryCarry dst src (abcdSum dst src x)).getLsbD j = BitVec.carry (j + 1) dst src x := by
  have hlt : j < 8 := by omega
  have hmask : (0x88#8).getLsbD j = true := by rcases hj with rfl | rfl <;> rfl
  have hsum : (abcdSum dst src x).getLsbD j = (dst.getLsbD j ^^ (src.getLsbD j ^^ BitVec.carry j dst src x)) :=
    BitVec.getLsbD_add_add_bool hlt dst src x
  simp only [abcdBinaryCarry, BitVec.carry_succ, BitVec.getLsbD_and, BitVec.getLsbD_or, BitVec.getLsbD_not, hmask, hsum,
    hlt, decide_true, Bool.true_and, Bool.and_true]
  cases dst.getLsbD j <;> cases src.getLsbD j <;> simp

/-- `dc` holds the carries out of bits 3 and 7 of the addition of `0x66`, which has a zero above each of them. -/
theorem getLsbD_abcdDecimalCarry (r : Byte) {j : Nat} (hj : j = 3 ∨ j = 7) :
    (abcdDecimalCarry r).getLsbD j = decide (2 ^ (j + 1) ≤ r.toNat % 2 ^ (j + 1) + 0x66 % 2 ^ (j + 1)) := by
  have hmask : (0x110#9).getLsbD (j + 1) = true := by rcases hj with rfl | rfl <;> rfl
  have hzero : (0x66#9).getLsbD (j + 1) = false := by rcases hj with rfl | rfl <;> rfl
  have hcarry : (abcdDecimalCarry r).getLsbD j = BitVec.carry (j + 1) (r.setWidth 9) 0x66#9 false := by
    rw [abcdDecimalCarry, BitVec.getLsbD_setWidth, BitVec.getLsbD_ushiftRight, Nat.add_comm 1 j, BitVec.getLsbD_and,
      BitVec.getLsbD_xor, BitVec.getLsbD_add (by omega), hmask, hzero, decide_eq_true (by omega : j < 8)]
    cases (r.setWidth 9).getLsbD (j + 1) <;> simp
  rw [hcarry, BitVec.carry, BitVec.toNat_setWidth_of_le (by decide)]
  rfl

theorem abcdBinaryCarry_bit7 : (abcdBinaryCarry dst src (abcdSum dst src x)).getLsbD 7 = true ↔
    256 ≤ dst.toNat + src.toNat + x.toNat := by
  have hd := dst.isLt
  have hs := src.isLt
  rw [getLsbD_abcdBinaryCarry dst src x (.inr rfl), BitVec.carry, decide_eq_true_iff]
  omega

theorem abcdBinaryCarry_bit3 : (abcdBinaryCarry dst src (abcdSum dst src x)).getLsbD 3 = true ↔
    16 ≤ dst.toNat % 16 + src.toNat % 16 + x.toNat := by
  rw [getLsbD_abcdBinaryCarry dst src x (.inl rfl), BitVec.carry, decide_eq_true_iff]

theorem abcdDecimalCarry_bit7 (r : Byte) : (abcdDecimalCarry r).getLsbD 7 = true ↔ 256 ≤ r.toNat + 0x66 := by
  have hr := r.isLt
  rw [getLsbD_abcdDecimalCarry r (.inr rfl), decide_eq_true_iff]
  omega

theorem abcdDecimalCarry_bit3 (r : Byte) : (abcdDecimalCarry r).getLsbD 3 = true ↔ 16 ≤ r.toNat % 16 + 6 := by
  rw [getLsbD_abcdDecimalCarry r (.inl rfl), decide_eq_true_iff]
  omega

/-! ## The correction -/

/-- `t - (t >> 2)` where only bits 7 and 3 of `t` can be set: 6 in each digit whose bit is. -/
theorem correction_of_masked (t : Byte) : ((t &&& 0x88#8) - ((t &&& 0x88#8) >>> 2)) =
    (if t.getLsbD 7 then 0x60#8 else 0x00#8) + (if t.getLsbD 3 then 0x06#8 else 0x00#8) := by
  revert t; decide

theorem abcdDecimalCarry_masked (r : Byte) : abcdDecimalCarry r &&& 0x88#8 = abcdDecimalCarry r := by
  revert r; decide

/-- The correction of a digit is 6 where either of its carries is set. -/
theorem abcdCorrection_eq (r : Byte) :
    abcdCorrection (abcdBinaryCarry dst src r) (abcdDecimalCarry r) =
      (if (abcdBinaryCarry dst src r).getLsbD 7 || (abcdDecimalCarry r).getLsbD 7 then 0x60#8 else 0x00#8) +
      (if (abcdBinaryCarry dst src r).getLsbD 3 || (abcdDecimalCarry r).getLsbD 3 then 0x06#8 else 0x00#8) := by
  have hbc : abcdBinaryCarry dst src r &&& 0x88#8 = abcdBinaryCarry dst src r := by
    rw [abcdBinaryCarry, BitVec.and_assoc, BitVec.and_self]
  have hmasked : (abcdBinaryCarry dst src r ||| abcdDecimalCarry r) &&& 0x88#8 =
      abcdBinaryCarry dst src r ||| abcdDecimalCarry r := by
    rw [BitVec.and_or_distrib_right, hbc, abcdDecimalCarry_masked]
  rw [abcdCorrection, ← hmasked, correction_of_masked, BitVec.getLsbD_or, BitVec.getLsbD_or]

end

/-- Settles O28: the carries by the law of each bit, the correction digit by digit. -/
theorem carriesAndCorrectionMean : Obligations.CarriesAndCorrectionMean := by
  refine fun dst src x => ⟨toNat_abcdSum dst src x, abcdBinaryCarry_bit7 dst src x, abcdBinaryCarry_bit3 dst src x,
    abcdDecimalCarry_bit7 _, abcdDecimalCarry_bit3 _, ?_⟩
  simp only [abcdCore, abcdCorrection_eq]
  split <;> split <;> decide

/-! ## Valid operands -/

/-- The digits of a byte as its quotient and remainder by 16. -/
theorem validBcd_iff (b : Byte) : validBcd b = true ↔ b.toNat / 16 ≤ 9 ∧ b.toNat % 16 ≤ 9 := by
  have hb := b.isLt
  simp only [validBcd, BitVec.extractLsb'_toNat, Nat.shiftRight_eq_div_pow, Bool.and_eq_true, decide_eq_true_iff]
  omega

theorem bcdValue_eq (b : Byte) : bcdValue b = 10 * (b.toNat / 16) + b.toNat % 16 := by
  have hb := b.isLt
  simp only [bcdValue, BitVec.extractLsb'_toNat, Nat.shiftRight_eq_div_pow]
  omega

theorem bcdValue_le {b : Byte} (h : validBcd b = true) : bcdValue b ≤ 99 := by
  rw [validBcd_iff] at h
  rw [bcdValue_eq]
  omega

theorem getLsbD_seven (b : Byte) : b.getLsbD 7 = true ↔ 128 ≤ b.toNat := by
  rw [← BitVec.msb_eq_getLsbD_last b, BitVec.msb_eq_decide, decide_eq_true_iff]

section
variable {dst src : Byte} (hdst : validBcd dst = true) (hsrc : validBcd src = true) (x : Bool)
include hdst hsrc

/-- For valid operands the low digit is corrected exactly when its sum exceeds 9. -/
theorem lowCorrected_iff :
    ((abcdBinaryCarry dst src (abcdSum dst src x)).getLsbD 3 ||
        (abcdDecimalCarry (abcdSum dst src x)).getLsbD 3) = true ↔
      10 ≤ dst.toNat % 16 + src.toNat % 16 + x.toNat := by
  have hd := (validBcd_iff dst).mp hdst
  have hs := (validBcd_iff src).mp hsrc
  have hx := x.toNat_le
  rw [Bool.or_eq_true, abcdBinaryCarry_bit3, abcdDecimalCarry_bit3, toNat_abcdSum]
  omega

/-- For valid operands the high digit is corrected exactly when the decimal sum reaches 100. -/
theorem highCorrected_iff :
    ((abcdBinaryCarry dst src (abcdSum dst src x)).getLsbD 7 ||
        (abcdDecimalCarry (abcdSum dst src x)).getLsbD 7) = true ↔
      100 ≤ bcdValue dst + bcdValue src + x.toNat := by
  have hd := (validBcd_iff dst).mp hdst
  have hs := (validBcd_iff src).mp hsrc
  have hx := x.toNat_le
  rw [Bool.or_eq_true, abcdBinaryCarry_bit7, abcdDecimalCarry_bit7, toNat_abcdSum, bcdValue_eq, bcdValue_eq]
  omega

/-- For valid operands the result is the binary sum with 6 added for a carry of the low digits and ten sixteens taken
off for a carry of the high digits: the addition done by hand. -/
theorem toNat_abcdResult :
    (abcdResult dst src x).toNat + (if 100 ≤ bcdValue dst + bcdValue src + x.toNat then 160 else 0) =
      dst.toNat + src.toNat + x.toNat + if 10 ≤ dst.toNat % 16 + src.toNat % 16 + x.toNat then 6 else 0 := by
  have hd := (validBcd_iff dst).mp hdst
  have hs := (validBcd_iff src).mp hsrc
  have hx := x.toNat_le
  simp only [abcdResult, abcdCore, abcdCorrection_eq, lowCorrected_iff hdst hsrc, highCorrected_iff hdst hsrc,
    BitVec.toNat_add, toNat_abcdSum, bcdValue_eq]
  split <;> split <;> simp only [BitVec.toNat_ofNat] <;> omega

/-- The result is the packed BCD of the decimal sum modulo 100 (R164). -/
theorem abcdResult_valid_and_value :
    validBcd (abcdResult dst src x) = true ∧
      bcdValue (abcdResult dst src x) = (bcdValue dst + bcdValue src + x.toNat) % 100 := by
  have hr := toNat_abcdResult hdst hsrc x
  have hd := (validBcd_iff dst).mp hdst
  have hs := (validBcd_iff src).mp hsrc
  have hx := x.toNat_le
  rw [validBcd_iff, bcdValue_eq]
  rw [bcdValue_eq dst, bcdValue_eq src] at hr ⊢
  split at hr <;> split at hr <;> omega

/-- The carry-out is set exactly when the decimal sum reaches 100 (R164). -/
theorem abcdCarryOut_iff : abcdCarryOut dst src x = true ↔ 100 ≤ bcdValue dst + bcdValue src + x.toNat := by
  have hr := toNat_abcdResult hdst hsrc x
  have hd := (validBcd_iff dst).mp hdst
  have hs := (validBcd_iff src).mp hsrc
  have hx := x.toNat_le
  have hcarry : abcdCarryOut dst src x = true ↔
      256 ≤ dst.toNat + src.toNat + x.toNat ∨
        128 ≤ (abcdSum dst src x).toNat ∧ ¬ 128 ≤ (abcdResult dst src x).toNat := by
    rw [← abcdBinaryCarry_bit7 dst src x, ← getLsbD_seven, ← getLsbD_seven]
    simp [abcdCarryOut, abcdCarry, abcdCore, abcdResult]
  rw [hcarry, toNat_abcdSum]
  rw [bcdValue_eq dst, bcdValue_eq src] at hr ⊢
  split at hr <;> split at hr <;> omega

end

/-- Settles O27: validity, number and carry all follow from `toNat_abcdResult`, the addition done by hand. -/
theorem decimalSumOfValidOperands : Obligations.DecimalSumOfValidOperands := fun _ _ x hdst hsrc =>
  and_assoc.mp ⟨abcdResult_valid_and_value hdst hsrc x, abcdCarryOut_iff hdst hsrc x⟩

/-- Value and carry in one equation: what a chain adds up. -/
theorem bcdValue_abcdResult_add_carry {dst src : Byte} (hdst : validBcd dst = true) (hsrc : validBcd src = true)
    (x : Bool) : bcdValue (abcdResult dst src x) + 100 * (abcdCarryOut dst src x).toNat =
      bcdValue dst + bcdValue src + x.toNat := by
  have hd := bcdValue_le hdst
  have hs := bcdValue_le hsrc
  have hx := x.toNat_le
  have hcarry := abcdCarryOut_iff hdst hsrc x
  rw [(abcdResult_valid_and_value hdst hsrc x).2]
  cases h : abcdCarryOut dst src x with
  | true => simp only [h, true_iff] at hcarry; simp only [Bool.toNat_true]; omega
  | false => simp only [h, Bool.false_eq_true, false_iff] at hcarry; simp only [Bool.toNat_false]; omega

/-! ## A chain of additions (R172) -/

/-- The status word after one addition of a chain, whose X the next one reads. -/
def srAfterAbcd (abcd_v : Byte → Byte → Bool) (dst src : Byte) (sr : Word) : Word :=
  ccAbcd abcd_v (abcdCore dst src (readFlag .x sr)).1 (abcdCore dst src (readFlag .x sr)).2.1
    (abcdResult dst src (readFlag .x sr)) sr

section
variable (v : Byte → Byte → Bool) (dst src : Byte) (rest ops : List (Byte × Byte)) (sr : Word)

@[simp] theorem readFlag_x_srAfterAbcd :
    readFlag .x (srAfterAbcd v dst src sr) = abcdCarryOut dst src (readFlag .x sr) := readFlag_x_ccAbcd ..

@[simp] theorem readFlag_c_srAfterAbcd :
    readFlag .c (srAfterAbcd v dst src sr) = abcdCarryOut dst src (readFlag .x sr) := readFlag_c_ccAbcd ..

@[simp] theorem readFlag_z_srAfterAbcd : readFlag .z (srAfterAbcd v dst src sr) =
    (readFlag .z sr && decide (abcdResult dst src (readFlag .x sr) = 0)) := readFlag_z_ccAbcd ..

@[simp] theorem abcdChain_nil : abcdChain v [] sr = ([], sr) := rfl

@[simp] theorem abcdChain_cons (p : Byte × Byte) : abcdChain v (p :: rest) sr =
    (abcdResult p.1 p.2 (readFlag .x sr) :: (abcdChain v rest (srAfterAbcd v p.1 p.2 sr)).1,
      (abcdChain v rest (srAfterAbcd v p.1 p.2 sr)).2) := rfl

theorem length_abcdChain : (abcdChain v ops sr).1.length = ops.length := by
  induction ops generalizing sr with
  | nil => rfl
  | cons p rest ih => simp [ih]

/-- Z survives a chain exactly when every result byte is zero. -/
theorem readFlag_z_abcdChain : readFlag .z (abcdChain v ops sr).2 = true ↔
    readFlag .z sr = true ∧ ∀ b ∈ (abcdChain v ops sr).1, b = 0 := by
  induction ops generalizing sr with
  | nil => simp
  | cons p rest ih => simp [ih, and_assoc]

/-- C equals X at the end of a chain that starts so: every addition writes both alike. -/
theorem readFlag_c_abcdChain (h : readFlag .c sr = readFlag .x sr) :
    readFlag .c (abcdChain v ops sr).2 = readFlag .x (abcdChain v ops sr).2 := by
  induction ops generalizing sr with
  | nil => exact h
  | cons p rest ih => exact ih _ (by simp)

variable {ops} (hops : ∀ p ∈ ops, validBcd p.1 = true ∧ validBcd p.2 = true)
include hops

theorem valid_abcdChain : ∀ b ∈ (abcdChain v ops sr).1, validBcd b = true := by
  induction ops generalizing sr with
  | nil => simp
  | cons p rest ih =>
    obtain ⟨⟨hdst, hsrc⟩, hrest⟩ := List.forall_mem_cons.mp hops
    exact List.forall_mem_cons.mpr ⟨(abcdResult_valid_and_value hdst hsrc _).1, ih _ hrest⟩

/-- The result bytes and the last carry are the sum of the two numbers and the first X. -/
theorem bcdNumber_abcdChain :
    bcdNumber (abcdChain v ops sr).1 + 100 ^ ops.length * (readFlag .x (abcdChain v ops sr).2).toNat =
      bcdNumber (ops.map Prod.fst) + bcdNumber (ops.map Prod.snd) + (readFlag .x sr).toNat := by
  induction ops generalizing sr with
  | nil => simp [bcdNumber]
  | cons p rest ih =>
    obtain ⟨⟨hdst, hsrc⟩, hrest⟩ := List.forall_mem_cons.mp hops
    have hbyte := bcdValue_abcdResult_add_carry hdst hsrc (readFlag .x sr)
    have htail := ih (srAfterAbcd v p.1 p.2 sr) hrest
    rw [readFlag_x_srAfterAbcd] at htail
    simp only [abcdChain_cons, bcdNumber, List.map_cons, List.length_cons, pow_succ]
    linarith

end

/-- Settles O29: each part by induction over the pairs. -/
theorem chainAddsDecimalNumbers : Obligations.ChainAddsDecimalNumbers := by
  refine fun v ops sr hops => ⟨length_abcdChain v ops sr, valid_abcdChain v sr hops, bcdNumber_abcdChain v sr hops,
    readFlag_z_abcdChain v ops sr, fun hne => ?_⟩
  cases ops with
  | nil => exact absurd rfl hne
  | cons p rest => exact readFlag_c_abcdChain v rest _ (by simp)

end Sys2Proof.Machine
end

section
/-! The two forms of ABCD (41_abcd.md R165 to R173): what each leaves in every field where it completes, and from that
its result, its flags, its frame and the source's worked examples. -/

namespace Sys2Proof.Machine

/-! ## The flags -/

/-- R165's expression for the carry is bit 7 of what it shifts. -/
theorem abcdCarry_eq_shifted (r bc rr : Byte) : abcdCarry r bc rr = ((bc ||| (r &&& ~~~rr)) >>> 7).getLsbD 0 := by
  rw [BitVec.getLsbD_ushiftRight, abcdCarry]

/-- The condition-code update keeps the bits above the flags (R169). -/
theorem getLsbD_srAfterAbcd (v : Byte → Byte → Bool) (dst src : Byte) (sr : Word) {j : Nat} (hj : j < 16)
    (h5 : 5 ≤ j) : (srAfterAbcd v dst src sr).getLsbD j = sr.getLsbD j := by
  rw [getLsbD_eq_beyondFlags _ h5 hj, getLsbD_eq_beyondFlags _ h5 hj, srAfterAbcd, beyondFlags_ccAbcd]

section
variable {s t : State} {v : Byte → Byte → Bool} {dst src r bc rr : Byte}

/-- C, X, Z, N and V of a state whose status word an ABCD wrote (R165 to R168). -/
theorem flags_of_srAfterAbcd (ht : t.sr = srAfterAbcd v dst src s.sr)
    (hcore : abcdCore dst src (s.flag .x) = (r, bc, rr)) :
    t.flag .c = ((bc ||| (r &&& ~~~rr)) >>> 7).getLsbD 0 ∧ t.flag .x = ((bc ||| (r &&& ~~~rr)) >>> 7).getLsbD 0 ∧
      t.flag .z = (s.flag .z && decide (rr = 0)) ∧ t.flag .n = rr.getLsbD 7 ∧ t.flag .v = v r rr := by
  have hcc : t.sr = ccAbcd v r bc rr s.sr := by rw [ht, srAfterAbcd, abcdResult, ← State.flag, hcore]
  simp only [State.flag, hcc, readFlag_c_ccAbcd, readFlag_x_ccAbcd, readFlag_z_ccAbcd, readFlag_n_ccAbcd,
    readFlag_v_ccAbcd, abcdCarry_eq_shifted, and_self]

/-- Z, cleared only (R167), as its two cases. -/
theorem zero_flag_cases {z z' : Bool} (h : z' = (z && decide (rr = 0))) : (rr ≠ 0 → z' = false) ∧ (rr = 0 → z' = z) :=
  ⟨fun hne => by rw [h, decide_eq_false hne, Bool.and_false], fun he => by rw [h, decide_eq_true he, Bool.and_true]⟩

end

/-! ## The register form -/

section
variable (ry rx : RegNum) (s : State)

/-- The state `ABCD Dy,Dx` leaves (R170). -/
def afterAbcdReg : State :=
  (s.setDByte rx (abcdResult (s.dByte rx) (s.dByte ry) (s.flag .x))).setAbcdFlags (s.dByte rx) (s.dByte ry) (s.flag .x)

/-- The register form always completes. -/
theorem exec_abcdReg : exec (.abcdReg ry rx) s = .next (afterAbcdReg ry rx s) := rfl

theorem exec_abcdReg_eq_next {t : State} : exec (.abcdReg ry rx) s = .next t ↔ t = afterAbcdReg ry rx s := by
  rw [exec_abcdReg, Host.Outcome.next.injEq, eq_comm]

@[simp] theorem afterAbcdReg_sr :
    (afterAbcdReg ry rx s).sr = srAfterAbcd (abcdV s.abcdVDiffers) (s.dByte rx) (s.dByte ry) s.sr := rfl

@[simp] theorem dReg_afterAbcdReg (n : RegNum) : (afterAbcdReg ry rx s).dReg n =
    if n = rx then (s.dReg rx).extractLsb' 8 24 ++ abcdResult (s.dByte rx) (s.dByte ry) (s.flag .x) else s.dReg n := by
  rw [afterAbcdReg, dReg_setAbcdFlags, dReg_setDByte, writeByteView_low]

end

/-- Settles O31, field by field of the state the form leaves. -/
theorem registerFormResult : Obligations.RegisterFormResult := by
  intro ry rx s r bc rr hcore
  have hresult : abcdResult (s.dByte rx) (s.dByte ry) (s.flag .x) = rr := congrArg (·.2.2) hcore
  obtain ⟨hc, hx, hz, hn, _⟩ := flags_of_srAfterAbcd (afterAbcdReg_sr ry rx s) hcore
  obtain ⟨hcleared, hkept⟩ := zero_flag_cases hz
  exact ⟨_, exec_abcdReg ry rx s, by rw [dReg_afterAbcdReg, if_pos rfl, hresult], hc, hx, hcleared, hkept, hn⟩

/-- Settles O32, field by field of the state the form leaves. -/
theorem registerFormFrame : Obligations.RegisterFormFrame := by
  intro ry rx s t h
  obtain rfl := (exec_abcdReg_eq_next ry rx s).mp h
  exact ⟨fun n hn => by rw [dReg_afterAbcdReg, if_neg hn], fun _ => rfl,
    fun j hj h5 => getLsbD_srAfterAbcd _ _ _ _ hj h5, rfl, rfl, rfl, fun _ => rfl, rfl, rfl, rfl, rfl⟩

/-- The register form on known operands, `abcd_v` being its default: its result and status word by computation. -/
theorem exec_abcdReg_of_operands {ry rx : RegNum} {s : State} {u w w' : Long} {sr sr' : Word} (hy : s.dReg ry = u)
    (hx : s.dReg rx = w) (hsr : s.sr = sr) (hv : s.abcdVDiffers = [])
    (hw' : w.extractLsb' 8 24 ++ abcdResult (byteView 3 w) (byteView 3 u) (readFlag .x sr) = w')
    (hsr' : srAfterAbcd abcdVDefault (byteView 3 w) (byteView 3 u) sr = sr') :
    ∃ t, exec (.abcdReg ry rx) s = .next t ∧ t.dReg rx = w' ∧ t.sr = sr' := by
  have hdefault : abcdV s.abcdVDiffers = abcdVDefault := by rw [hv]; exact funext₂ abcdV_nil
  subst hy hx hsr hw' hsr'
  exact ⟨_, exec_abcdReg ry rx s, by rw [dReg_afterAbcdReg, if_pos rfl]; rfl, by rw [afterAbcdReg_sr, hdefault]; rfl⟩

/-- Settles O33: each example is the form on its operands, evaluated. -/
theorem registerFormWorkedExamples : Obligations.RegisterFormWorkedExamples := by
  intro s h0 h1 h2 h3 h4 hsr hv
  exact ⟨exec_abcdReg_of_operands h0 h1 hsr hv (by decide) (by decide),
    exec_abcdReg_of_operands (s := s.setSr 0x0014#16) (sr := 0x0014#16) h0 h1 rfl hv (by decide) (by decide),
    exec_abcdReg_of_operands h2 h3 hsr hv (by decide) (by decide),
    exec_abcdReg_of_operands (s := s.setSr 0x0014#16) (sr := 0x0014#16) h4 h3 rfl hv (by decide) (by decide),
    exec_abcdReg_of_operands h4 h3 hsr hv (by decide) (by decide)⟩

/-! ## The memory form -/

section
variable (ry rx : RegNum) (s : State) (st : Store)

/-- The result byte of the memory form. -/
def memResult : Byte := abcdResult (s.byteAt (destAddress ry rx s)) (s.byteAt (sourceAddress ry s)) (s.flag .x)

/-- The state `ABCD -(Ay),-(Ax)` leaves where the MMU holds `st` and its draws are granted (R171). -/
def afterAbcdMem : State :=
  (((preDecrement rx (preDecrement ry s)).dropDraws (st.drawsForAll [sourceAddress ry s, destAddress ry rx s])).setMmu
    (.ready ((st.touchAll [sourceAddress ry s, destAddress ry rx s]).setByte (destAddress ry rx s)
      (memResult ry rx s)))).setAbcdFlags
    (s.byteAt (destAddress ry rx s)) (s.byteAt (sourceAddress ry s)) (s.flag .x)

/-- The memory form completes exactly while the MMU is `READY` and its draws are granted. -/
theorem exec_abcdMem_eq_next {t : State} : exec (.abcdMem ry rx) s = .next t ↔
    ∃ st, s.mmu = .ready st ∧ s.granted (st.drawsForAll [sourceAddress ry s, destAddress ry rx s]) ∧
      t = afterAbcdMem ry rx s st := by
  constructor
  · intro h
    obtain ⟨st, hm, hg⟩ := execAbcdMem_eq_next ry rx h
    rw [execAbcdMem_granted ry rx hm hg, Host.Outcome.next.injEq] at h
    exact ⟨st, hm, hg, h.symm⟩
  · rintro ⟨st, hm, hg, rfl⟩
    exact execAbcdMem_granted ry rx hm hg

@[simp] theorem afterAbcdMem_sr : (afterAbcdMem ry rx s st).sr =
    srAfterAbcd (abcdV s.abcdVDiffers) (s.byteAt (destAddress ry rx s)) (s.byteAt (sourceAddress ry s)) s.sr := rfl

/-- Each address register used is left at the address it gave. -/
@[simp] theorem aReg_afterAbcdMem (n : RegNum) : (afterAbcdMem ry rx s st).aReg n =
    if n = rx then destAddress ry rx s else if n = ry then sourceAddress ry s else s.aReg n := by
  simp only [afterAbcdMem, aReg_setAbcdFlags, aReg_setMmu, aReg_dropDraws, destAddress, sourceAddress,
    aReg_preDecrement, if_true]

@[simp] theorem drawAt_afterAbcdMem (k : Nat) : (afterAbcdMem ry rx s st).drawAt k =
    s.drawAt (st.drawsForAll [sourceAddress ry s, destAddress ry rx s] + k) := by
  simp only [afterAbcdMem, drawAt_setAbcdFlags, drawAt_setMmu, drawAt_dropDraws, drawAt_preDecrement]

theorem afterAbcdMem_mmu : (afterAbcdMem ry rx s st).mmu =
    .ready ((st.touchAll [sourceAddress ry s, destAddress ry rx s]).setByte (destAddress ry rx s)
      (memResult ry rx s)) := rfl

/-- The result byte is stored at the destination address, and no other byte changes. -/
theorem byteAt_afterAbcdMem {s : State} {st : Store} (hm : s.mmu = .ready st) (k : Long) :
    (afterAbcdMem ry rx s st).byteAt k = if k = destAddress ry rx s then memResult ry rx s else s.byteAt k := by
  have hpage : pageOf (destAddress ry rx s) ∈ (st.touchAll [sourceAddress ry s, destAddress ry rx s]).pages :=
    (covers_touchAll st _ _ (by simp)).2
  rw [byteAt_of_ready (afterAbcdMem_mmu ry rx s st), byteAt_setByte hpage, byteAt_touchAll, byteAt_of_ready hm]

end

/-- Settles O34, field by field of the state the form leaves. -/
theorem memoryFormResult : Obligations.MemoryFormResult := by
  intro ry rx s st src dst r bc rr hm hsrc hdst hg hcore
  rw [← sourceAddress_eq] at hsrc
  rw [← destAddress_eq] at hdst
  subst hsrc hdst
  have hresult : memResult ry rx s = rr := congrArg (·.2.2) hcore
  obtain ⟨hc, hx, hz, hn, _⟩ := flags_of_srAfterAbcd (afterAbcdMem_sr ry rx s st) hcore
  obtain ⟨hcleared, hkept⟩ := zero_flag_cases hz
  refine ⟨afterAbcdMem ry rx s st, (exec_abcdMem_eq_next ry rx s).mpr ⟨st, hm, hg, rfl⟩, fun hne => ⟨?_, ?_⟩,
    fun he => ?_, ?_, hc, hx, hcleared, hkept, hn, drawAt_afterAbcdMem ry rx s st, _, afterAbcdMem_mmu ry rx s st,
    fun d => ?_, fun p => ?_⟩
  · rw [aReg_afterAbcdMem, if_neg hne.symm, if_pos rfl, sourceAddress_eq]
  · rw [aReg_afterAbcdMem, if_pos rfl, destAddress_eq, if_neg hne]
  · rw [aReg_afterAbcdMem, if_pos rfl, destAddress_eq, if_pos he, he]
  · rw [byteAt_afterAbcdMem ry rx hm, if_pos rfl, hresult]
  · rw [tables_setByte, touchAll_cons, touchAll_cons, touchAll_nil, mem_tables_touch, mem_tables_touch, or_left_comm]
  · rw [pages_setByte, touchAll_cons, touchAll_cons, touchAll_nil, mem_pages_touch, mem_pages_touch, or_left_comm]

/-- Settles O35, field by field of the state the form leaves. -/
theorem memoryFormFrame : Obligations.MemoryFormFrame := by
  intro ry rx s t h
  obtain ⟨st, hm, _, rfl⟩ := (exec_abcdMem_eq_next ry rx s).mp h
  exact ⟨fun _ => rfl, fun n hy hx => by rw [aReg_afterAbcdMem, if_neg hx, if_neg hy],
    fun j hj h5 => getLsbD_srAfterAbcd _ _ _ _ hj h5, rfl, rfl, rfl, rfl,
    fun k hk => by rw [byteAt_afterAbcdMem ry rx hm, if_neg hk], destAddress_eq ry rx s⟩

/-- Settles O37: both addresses are present, so no draw is taken; the bytes and the status word by computation. -/
theorem memoryFormWorkedExample : Obligations.MemoryFormWorkedExample := by
  intro s hm ha0 ha1 hsr hv
  have hsrc : sourceAddress 0 s = 0x0F#32 := by rw [sourceAddress_eq, ha0]; rfl
  have hdst : destAddress 0 1 s = 0x1F#32 := by rw [destAddress_eq, if_neg (by decide), ha1]; rfl
  have hbsrc : s.byteAt 0x0F#32 = 0x46#8 := by rw [byteAt_of_ready hm]; decide
  have hbdst : s.byteAt 0x1F#32 = 0x28#8 := by rw [byteAt_of_ready hm]; decide
  have hx : s.flag .x = false := by rw [State.flag, hsr]; decide
  have hresult : memResult 0 1 s = 0x74#8 := by rw [memResult, hsrc, hdst, hbsrc, hbdst, hx]; decide
  refine ⟨_, (exec_abcdMem_eq_next 0 1 s).mpr ⟨_, hm, ?_, rfl⟩, ?_, ?_, ?_, ?_, ?_⟩
  · rw [hsrc, hdst]; exact granted_zero
  · rw [aReg_afterAbcdMem, if_neg (by decide), if_pos rfl, hsrc]
  · rw [aReg_afterAbcdMem, if_pos rfl, hdst]
  · rw [byteAt_afterAbcdMem 0 1 hm, hdst, if_pos rfl, hresult]
  · rw [byteAt_afterAbcdMem 0 1 hm, hdst, if_neg (by decide), hbsrc]
  · rw [afterAbcdMem_sr, hsrc, hdst, hbsrc, hbdst, hsr, hv]; decide

/-! ## Both forms, and every step -/

/-- An ABCD of either form on these register numbers took `s` to `t`, and `core` is the adder's answer on the operands
read. -/
def CompletedAbcd (ry rx : RegNum) (s t : State) (core : Byte × Byte × Byte) : Prop :=
  (exec (.abcdReg ry rx) s = .next t ∧ abcdCore (s.dByte rx) (s.dByte ry) (s.flag .x) = core) ∨
    (exec (.abcdMem ry rx) s = .next t ∧
      abcdCore (s.byteAt (destAddress ry rx s)) (s.byteAt (sourceAddress ry s)) (s.flag .x) = core)

section
variable {ry rx : RegNum} {s t : State}

theorem completedAbcd_of_exec {i : Instr} (h : exec i s = .next t) : ∃ ry rx core, CompletedAbcd ry rx s t core := by
  cases i with
  | abcdReg ry rx => exact ⟨ry, rx, _, .inl ⟨h, rfl⟩⟩
  | abcdMem ry rx => exact ⟨ry, rx, _, .inr ⟨h, rfl⟩⟩

/-- The five flags after a completed ABCD of either form. -/
theorem CompletedAbcd.flags {r bc rr : Byte} (h : CompletedAbcd ry rx s t (r, bc, rr)) :
    t.flag .c = ((bc ||| (r &&& ~~~rr)) >>> 7).getLsbD 0 ∧ t.flag .x = ((bc ||| (r &&& ~~~rr)) >>> 7).getLsbD 0 ∧
      t.flag .z = (s.flag .z && decide (rr = 0)) ∧ t.flag .n = rr.getLsbD 7 ∧
      t.flag .v = abcdV s.abcdVDiffers r rr := by
  rcases h with ⟨h, hcore⟩ | ⟨h, hcore⟩
  · obtain rfl := (exec_abcdReg_eq_next ry rx s).mp h
    exact flags_of_srAfterAbcd (afterAbcdReg_sr ry rx s) hcore
  · obtain ⟨st, _, _, rfl⟩ := (exec_abcdMem_eq_next ry rx s).mp h
    exact flags_of_srAfterAbcd (afterAbcdMem_sr ry rx s st) hcore

end

/-- Settles O30, by the flags of a completed ABCD. -/
theorem flagsFollowTheRules : Obligations.FlagsFollowTheRules := by
  intro ry rx s t r bc rr h
  obtain ⟨hc, hx, hz, hn, _⟩ := CompletedAbcd.flags h
  obtain ⟨hcleared, hkept⟩ := zero_flag_cases hz
  exact ⟨hc, hx, hcleared, hkept, hz, hn⟩

/-- Settles O38, by the flags of a completed ABCD and the default of `abcd_v`. -/
theorem overflowFollowsTheDefault : Obligations.OverflowFollowsTheDefault := by
  intro ry rx s t r bc rr h
  obtain ⟨_, _, _, _, hv⟩ := CompletedAbcd.flags h
  exact ⟨hv, fun hnil => by rw [hv, hnil, abcdV_nil, abcdVDefault_eq_true]⟩

/-- Settles O46: a completed step ran an ABCD, and Z after it is Z before it or less. -/
theorem noStepSetsZ : Obligations.NoStepSetsZ := by
  intro s t h hz
  obtain ⟨st, i, u, _, _, _, hexec, rfl⟩ := step_eq_next h
  obtain ⟨ry, rx, ⟨r, bc, rr⟩, hcompleted⟩ := completedAbcd_of_exec hexec
  obtain ⟨_, _, hzu, _⟩ := hcompleted.flags
  rw [flag_advancePc, hzu, Bool.and_eq_true, State.flag, fetched_sr] at hz
  exact hz.1

end Sys2Proof.Machine
end

section
/-! The register accessors of the host (42_host_interface.md R192): each completes in every state, what it writes is
what the matching read answers, and it leaves alone all but the register it names. -/

namespace Sys2Proof.Machine

/-! ## A general register's write -/

section
variable (s : State) (g : GeneralReg) (v : Long)

/-- Read after write: the sixteen general registers are cells of their own (10_state.md R22, R25). -/
@[simp] theorem getReg_setReg (h : GeneralReg) : (s.setReg g v).getReg h = if h = g then v else s.getReg h := by
  cases g with
  | d n => cases h <;> simp [State.getReg, State.setReg]
  | a n => cases h <;> simp [State.getReg, State.setReg]

@[simp] theorem setReg_pc : (s.setReg g v).pc = s.pc := by cases g <;> rfl
@[simp] theorem setReg_sr : (s.setReg g v).sr = s.sr := by cases g <;> rfl
@[simp] theorem setReg_ctrl : (s.setReg g v).ctrl = s.ctrl := by cases g <;> rfl
@[simp] theorem setReg_ir : (s.setReg g v).ir = s.ir := by cases g <;> rfl
@[simp] theorem setReg_mmu : (s.setReg g v).mmu = s.mmu := by cases g <;> rfl
@[simp] theorem setReg_draws : (s.setReg g v).draws = s.draws := by cases g <;> rfl
@[simp] theorem setReg_drawCount : (s.setReg g v).drawCount = s.drawCount := by cases g <;> rfl

/-- What a write of a general register leaves in every register. -/
theorem setReg_registers : (s.setReg g v).getReg g = v ∧ (∀ h, h ≠ g → (s.setReg g v).getReg h = s.getReg h) ∧
    (s.setReg g v).pc = s.pc ∧ (s.setReg g v).sr = s.sr ∧ (s.setReg g v).ctrl = s.ctrl :=
  ⟨by simp, fun h hne => by simp [hne], by simp, by simp, by simp⟩

end

/-- Settles O11: each view's write is a write of the whole register, and reading the view of what was written into it
answers the value. -/
theorem hostWritesGeneralRegister : Obligations.HostWritesGeneralRegister := by
  refine fun g s => ⟨fun v => ⟨s.setReg g v, rfl, ?_, setReg_registers s g v⟩,
    fun k v => ⟨s.setReg g (writeWordView k v (s.getReg g)), rfl, ?_, setReg_registers s g _⟩,
    fun k v => ⟨s.setReg g (writeByteView k v (s.getReg g)), rfl, ?_, setReg_registers s g _⟩⟩
  · simp [transact, answered]
  · simp [transact, answered, wordView_writeWordView]
  · simp [transact, answered, byteView_writeByteView]

/-! ## PC and the status word -/

theorem sameButPcAndSr_setPc (s : State) (v : Long) : s.sameButPcAndSr (s.setPc v) := ⟨rfl, rfl, rfl, rfl, rfl, rfl⟩

theorem sameButPcAndSr_setSr (s : State) (v : Word) : s.sameButPcAndSr (s.setSr v) := ⟨rfl, rfl, rfl, rfl, rfl, rfl⟩

theorem readMask_writeMask (v : BitVec 3) (sr : Word) : readMask (writeMask v sr) = v :=
  extractLsb'_writeSrField 8 v sr (by decide)

theorem readTrace_writeTrace (v : BitVec 2) (sr : Word) : readTrace (writeTrace v sr) = v :=
  extractLsb'_writeSrField 14 v sr (by decide)

theorem getLsbD_writeMask (v : BitVec 3) (sr : Word) {j : Nat} (hj : j < 16) :
    (writeMask v sr).getLsbD j = if 8 ≤ j ∧ j ≤ 10 then v.getLsbD (j - 8) else sr.getLsbD j := by
  have hrange : j < 8 + 3 ↔ j ≤ 10 := by omega
  simp only [writeMask, getLsbD_writeSrField 8 v sr hj, hrange]

theorem getLsbD_writeTrace (v : BitVec 2) (sr : Word) {j : Nat} (hj : j < 16) :
    (writeTrace v sr).getLsbD j = if 14 ≤ j then v.getLsbD (j - 14) else sr.getLsbD j := by
  have hrange : 14 ≤ j ∧ j < 14 + 2 ↔ 14 ≤ j := by omega
  simp only [writeTrace, getLsbD_writeSrField 14 v sr hj, hrange]

/-- Settles O53: PC and SR are cells of their own, and a field's write is a write of SR that its read undoes. -/
theorem hostWritesPcAndStatus : Obligations.HostWritesPcAndStatus := by
  refine fun s => ⟨fun v => ⟨s.setPc v, rfl, rfl, rfl, rfl, sameButPcAndSr_setPc s v⟩,
    fun v => ⟨s.setSr v, rfl, rfl, rfl, rfl, sameButPcAndSr_setSr s v⟩,
    fun f b => ⟨s.setSr (writeFlag f b s.sr), rfl, ?_, fun j => getLsbD_writeFlag f b s.sr, rfl,
      sameButPcAndSr_setSr s _⟩,
    fun v => ⟨s.setSr (writeMask v s.sr), rfl, ?_, fun j => getLsbD_writeMask v s.sr, rfl, sameButPcAndSr_setSr s _⟩,
    fun v => ⟨s.setSr (writeTrace v s.sr), rfl, ?_, fun j => getLsbD_writeTrace v s.sr, rfl,
      sameButPcAndSr_setSr s _⟩⟩
  · simp [transact, answered]
  · simp [transact, answered, readMask_writeMask]
  · simp [transact, answered, readTrace_writeTrace]

/-! ## Every accessor -/

/-- A control register 10_state.md R35 names is always there. -/
theorem onCtrl_of_isNamed {α : Type} {c : CtrlName} (h : c.isNamed = true) (k : Result α) : onCtrl c k = k :=
  onCtrl_of_exists (fun n hn => by subst hn; cases h) k

/-- The outcome completes, and in a state with the `IR`, the MMU and the draws of `s`: all that no accessor reaches. -/
def CompletesInRegisters (s : State) (o : Result (State × Reply)) : Prop :=
  ∃ t v, o = .next (t, v) ∧ t.ir = s.ir ∧ t.mmu = s.mmu ∧ t.draws = s.draws ∧ t.drawCount = s.drawCount

theorem CompletesInRegisters.onCtrl {s : State} {o : Result (State × Reply)} (ho : CompletesInRegisters s o)
    {c : CtrlName} (h : c.isNamed = true) : CompletesInRegisters s (onCtrl c o) := by rwa [onCtrl_of_isNamed h]

section
variable (s : State)

theorem answered_completesInRegisters {w : Nat} (v : BitVec w) : CompletesInRegisters s (answered v s) :=
  ⟨s, _, rfl, rfl, rfl, rfl, rfl⟩

theorem setReg_completesInRegisters (g : GeneralReg) (v : Long) : CompletesInRegisters s (completed (s.setReg g v)) :=
  ⟨_, _, rfl, by simp, by simp, by simp, by simp⟩

theorem setPc_completesInRegisters (v : Long) : CompletesInRegisters s (completed (s.setPc v)) :=
  ⟨_, _, rfl, rfl, rfl, rfl, rfl⟩

theorem setSr_completesInRegisters (v : Word) : CompletesInRegisters s (completed (s.setSr v)) :=
  ⟨_, _, rfl, rfl, rfl, rfl, rfl⟩

theorem setCtrl_completesInRegisters (c : ControlRegs) : CompletesInRegisters s (completed (s.setCtrl c)) :=
  ⟨_, _, rfl, rfl, rfl, rfl, rfl⟩

theorem accessor_completesInRegisters {r : Request} (h : r.isPlainAccessor = true) :
    CompletesInRegisters s (transact r s) := by
  cases r with
  | getReg | getRegWord | getRegByte | getPc | getSr | getFlag | getMask | getTrace =>
    exact answered_completesInRegisters s _
  | setReg | setRegWord | setRegByte => exact setReg_completesInRegisters s _ _
  | setPc => exact setPc_completesInRegisters s _
  | setSr | setFlag | setMask | setTrace => exact setSr_completesInRegisters s _
  | getCtrl n => exact (answered_completesInRegisters s _).onCtrl h
  | setCtrl n v => exact (setCtrl_completesInRegisters s _).onCtrl h
  | mmuInitialize | mmuDestroy | readByte | readWord | readLong | writeByte | writeWord | writeLong | lookup | step
  | reset => cases h

end

/-- Settles O10: an accessor reads, or writes one of the general registers, PC, SR and the control registers. -/
theorem accessorsNeverFail : Obligations.AccessorsNeverFail := fun _ s h => accessor_completesInRegisters s h

end Sys2Proof.Machine
end

section
/-! What a step does where storage is refused and where it is granted (60_exceptions.md R213, R214, R219). A fault of
the memory form leaves what its decrements left, as a program sees it; a fault of a step leaves all but IR and the
address registers as it was; and eight granted draws are as many as a step can take. -/

namespace Sys2Proof.Machine

/-! ## The memory form where a draw is refused -/

/-- The memory form faults with what a program saw after the decrements made so far, at the address it was reading. -/
def FaultsAfterDecrements (ry rx : RegNum) (s : State) (r : Fault) : Prop :=
  ∃ b u t, r = .allocFailure (some b) t ∧
    ((b = sourceAddress ry s ∧ u = preDecrement ry s) ∨
      (b = destAddress ry rx s ∧ u = preDecrement rx (preDecrement ry s))) ∧
    u.looksLike t ∧ (u.mmu.wf → t.mmu.wf)

section
variable {s : State}

theorem execAbcdMem_faultsAfterDecrements (ry rx : RegNum) {st : Store} (hm : s.mmu = .ready st)
    (hg : ¬ s.granted (st.drawsForAll [sourceAddress ry s, destAddress ry rx s])) :
    ∃ r, exec (.abcdMem ry rx) s = .fault r ∧ FaultsAfterDecrements ry rx s r := by
  obtain ⟨r, he, hd | hd⟩ := execAbcdMem_denied ry rx hm hg
  · obtain ⟨t, _, rfl, hl, _, _, hwf⟩ := hd.facts (s := preDecrement ry s) hm
    exact ⟨_, he, _, _, t, rfl, .inl ⟨rfl, rfl⟩, hl, hwf⟩
  · obtain ⟨t, _, rfl, hl, _, _, hwf⟩ := hd.facts (s := preDecrement rx (preDecrement ry s)) hm
    exact ⟨_, he, _, _, t, rfl, .inr ⟨rfl, rfl⟩, hl, hwf⟩

/-- Only the memory form faults, and only where a draw is refused. -/
theorem exec_eq_fault {i : Instr} {r : Fault} (h : exec i s = .fault r) :
    ∃ ry rx, FaultsAfterDecrements ry rx s r := by
  cases i with
  | abcdReg ry rx => cases h
  | abcdMem ry rx =>
    refine ⟨ry, rx, ?_⟩
    cases hm : s.mmu with
    | uninit => rw [execAbcdMem_uninit ry rx hm] at h; cases h
    | ready st =>
      by_cases hg : s.granted (st.drawsForAll [sourceAddress ry s, destAddress ry rx s])
      · rw [execAbcdMem_granted ry rx hm hg] at h; cases h
      · obtain ⟨_, he, hf⟩ := execAbcdMem_faultsAfterDecrements ry rx hm hg
        obtain rfl := Host.Outcome.fault.inj (he.symm.trans h)
        exact hf

/-- Settles O36: the decrements touch no other register and no byte, and the refused read adds nothing to them. -/
theorem memoryFormFault : Obligations.MemoryFormFault := by
  intro ry rx s st hm hg
  obtain ⟨_, he, b, u, t, rfl, hu, ⟨⟨hd, ha, hpc, hsr, hctrl, hir⟩, hbytes, _⟩, _⟩ :=
    execAbcdMem_faultsAfterDecrements ry rx hm hg
  refine ⟨b, t, he, ?_⟩
  obtain ⟨rfl, rfl⟩ | ⟨rfl, rfl⟩ := hu
  · exact ⟨.inl ⟨rfl, ha⟩, hd, hsr, hpc, hir, hctrl, hbytes⟩
  · exact ⟨.inr ⟨rfl, ha⟩, hd, hsr, hpc, hir, hctrl, hbytes⟩

end

/-! ## What a fault of a step leaves -/

/-- From `s` to `t` each address register is decremented at most `k` times, and PC, SR, the D and control registers,
the bytes and the well-formedness of the MMU are kept; nothing is said of IR. -/
def State.OnlyDecremented (k : Nat) (s t : State) : Prop :=
  t.pc = s.pc ∧ t.sr = s.sr ∧ t.d = s.d ∧ t.ctrl = s.ctrl ∧ (∀ a, t.byteAt a = s.byteAt a) ∧
    (s.mmu.wf → t.mmu.wf) ∧ ∀ n, ∃ j ≤ k, t.aReg n = s.aReg n - BitVec.ofNat 32 j

section
variable {s t u : State} {j k : Nat}

theorem State.OnlyDecremented.trans (h : s.OnlyDecremented j t) (g : t.OnlyDecremented k u) :
    s.OnlyDecremented (j + k) u := by
  obtain ⟨hpc, hsr, hd, hctrl, hbytes, hwf, ha⟩ := h
  obtain ⟨hpc', hsr', hd', hctrl', hbytes', hwf', ha'⟩ := g
  refine ⟨hpc'.trans hpc, hsr'.trans hsr, hd'.trans hd, hctrl'.trans hctrl, fun a => (hbytes' a).trans (hbytes a),
    fun hw => hwf' (hwf hw), fun n => ?_⟩
  obtain ⟨m, hm, e⟩ := ha n
  obtain ⟨m', hm', e'⟩ := ha' n
  exact ⟨m + m', Nat.add_le_add hm hm', by rw [e', e, BitVec.sub_sub, BitVec.ofNat_add]⟩

theorem State.OnlyDecremented.mono (h : s.OnlyDecremented j t) (hjk : j ≤ k) : s.OnlyDecremented k t := by
  obtain ⟨hpc, hsr, hd, hctrl, hbytes, hwf, ha⟩ := h
  exact ⟨hpc, hsr, hd, hctrl, hbytes, hwf, fun n => (ha n).imp fun _ ⟨hm, e⟩ => ⟨hm.trans hjk, e⟩⟩

theorem State.looksLike.onlyDecremented (h : s.looksLike t) (hwf : s.mmu.wf → t.mmu.wf) : s.OnlyDecremented 0 t := by
  obtain ⟨⟨hd, ha, hpc, hsr, hctrl, _⟩, hbytes, _⟩ := h
  refine ⟨hpc, hsr, hd, hctrl, hbytes, hwf, fun n => ⟨0, le_rfl, ?_⟩⟩
  rw [State.aReg, State.aReg, ha, BitVec.sub_zero]

theorem preDecrement_onlyDecremented (n : RegNum) (s : State) : s.OnlyDecremented 1 (preDecrement n s) := by
  refine ⟨rfl, rfl, rfl, rfl, fun _ => rfl, id, fun m => ?_⟩
  rw [aReg_preDecrement]
  split
  next h => exact ⟨1, le_rfl, by rw [h]; rfl⟩
  next => exact ⟨0, Nat.zero_le 1, (BitVec.sub_zero _).symm⟩

theorem fetched_onlyDecremented {st : Store} (hm : s.mmu = .ready st) : s.OnlyDecremented 0 (fetched s st) :=
  ⟨fetched_pc s st, fetched_sr s st, fetched_d s st, fetched_ctrl s st, byteAt_fetched hm, fetched_wf hm,
    fun n => ⟨0, le_rfl, by rw [State.aReg, State.aReg, fetched_a, BitVec.sub_zero]⟩⟩

theorem FaultsAfterDecrements.onlyDecremented {ry rx : RegNum} {r : Fault} (h : FaultsAfterDecrements ry rx s r) :
    s.OnlyDecremented 2 r.final := by
  obtain ⟨b, u, t, rfl, hu, hl, hwf⟩ := h
  have ht := hl.onlyDecremented hwf
  have hry := preDecrement_onlyDecremented ry s
  obtain ⟨_, rfl⟩ | ⟨_, rfl⟩ := hu
  · exact (hry.trans ht).mono (by decide)
  · exact (hry.trans (preDecrement_onlyDecremented rx _)).trans ht

/-- What a step can fault with: its fetch refused a draw, an absent opcode, or a fault of the instruction. -/
theorem step_eq_fault {r : Fault} (h : step s = .fault r) :
    ∃ st, s.mmu = .ready st ∧
      ((∃ b t, r = .allocFailure (some b) t ∧ s.looksLike t ∧ (s.mmu.wf → t.mmu.wf)) ∨
        (decodeWord (s.byteAt s.pc ++ s.byteAt (s.pc + 1)) = none ∧
          r = .noInstruction (s.byteAt s.pc ++ s.byteAt (s.pc + 1)) (fetched s st)) ∨
        ∃ i, exec i (fetched s st) = .fault r) := by
  cases hm : s.mmu with
  | uninit => rw [step_uninit hm] at h; cases h
  | ready st =>
    refine ⟨st, rfl, ?_⟩
    obtain ⟨_, ⟨hdec, he⟩ | ⟨i, _, he⟩⟩ | ⟨b, _, _, he, hd⟩ := step_ready hm <;> rw [he] at h
    · cases h
      exact .inr (.inl ⟨hdec, rfl⟩)
    · obtain h | ⟨_, _, h⟩ := andThen_eq_fault.mp h
      · exact .inr (.inr ⟨i, h⟩)
      · cases h
    · cases h
      obtain ⟨t, _, rfl, hl, _, _, hwf⟩ := hd.facts hm
      exact .inl ⟨b, t, rfl, hl, hm ▸ hwf⟩

theorem step_fault_onlyDecremented {r : Fault} (h : step s = .fault r) : s.OnlyDecremented 2 r.final := by
  obtain ⟨st, hm, ⟨b, t, rfl, hl, hwf⟩ | ⟨_, rfl⟩ | ⟨i, he⟩⟩ := step_eq_fault h
  · exact (hl.onlyDecremented hwf).mono (by decide)
  · exact (fetched_onlyDecremented hm).mono (by decide)
  · obtain ⟨ry, rx, hf⟩ := exec_eq_fault he
    exact (fetched_onlyDecremented hm).trans hf.onlyDecremented

/-- A `NoInstruction` of a step is the fetched state with a word that has no slot. -/
theorem step_eq_noInstruction {w : Word} (h : step s = .fault (.noInstruction w t)) :
    ∃ st, w = s.byteAt s.pc ++ s.byteAt (s.pc + 1) ∧ decodeWord w = none ∧ t = fetched s st := by
  obtain ⟨st, _, ⟨_, _, hr, _⟩ | ⟨hdec, hr⟩ | ⟨i, he⟩⟩ := step_eq_fault h
  · cases hr
  · cases hr
    exact ⟨st, rfl, hdec, rfl⟩
  · obtain ⟨_, _, _, _, _, hr, _⟩ := exec_eq_fault he
    cases hr

/-- Settles O45: at most two decrements stand between a step's start and its fault, and none before `NoInstruction`. -/
theorem stepFaultsArePrecise : Obligations.StepFaultsArePrecise := by
  intro s r h
  obtain ⟨hpc, hsr, hd, hctrl, hbytes, hwf, ha⟩ := step_fault_onlyDecremented h
  refine ⟨hpc, hsr, hd, hctrl, hbytes, hwf, fun n => ?_, ?_⟩
  · obtain ⟨j, hj, e⟩ := ha n
    interval_cases j
    · exact .inl (e.trans (BitVec.sub_zero _))
    · exact .inr (.inl e)
    · exact .inr (.inr e)
  · rintro w t rfl
    obtain ⟨st, rfl, hdec, rfl⟩ := step_eq_noInstruction h
    exact ⟨fetched_a s st, fetched_ir s st, rfl, hdec⟩

end

/-! ## The step where its draws are granted -/

/-- A location takes a draw for its table and one for its page at most (20_memory.md R74). -/
theorem drawsFor_le_two (st : Store) (a : Long) : st.drawsFor a ≤ 2 := by
  unfold Store.drawsFor
  split <;> split <;> decide

theorem drawsForAll_le (st : Store) (as : List Long) : st.drawsForAll as ≤ 2 * as.length := by
  induction as generalizing st with
  | nil => exact le_rfl
  | cons a as ih =>
    have ha := drawsFor_le_two st a
    have has := ih (st.touch a)
    rw [drawsForAll_cons, List.length_cons]
    omega

section
variable {s : State} {st : Store}

/-- An instruction reads two bytes at most, so four granted draws are enough. -/
theorem exec_completes (hm : s.mmu = .ready st) (hg : s.granted 4) (i : Instr) : ∃ t, exec i s = .next t := by
  cases i with
  | abcdReg ry rx => exact ⟨_, exec_abcdReg ry rx s⟩
  | abcdMem ry rx => exact ⟨_, execAbcdMem_granted ry rx hm (granted_mono hg (drawsForAll_le st _))⟩

theorem granted_fetched {n : Nat} (hg : s.granted (st.drawsForAll (span s.pc 2) + n)) : (fetched s st).granted n :=
  fun k hk => (drawAt_fetched s st k).trans (hg _ (Nat.add_lt_add_left hk _))

/-- Settles O43: the fetch takes four of the eight draws at most, and the instruction four more. -/
theorem stepCompletesWithStorage : Obligations.StepCompletesWithStorage := by
  intro s st i hm hg hdec
  have hfetch : st.drawsForAll (span s.pc 2) ≤ 4 := by simpa using drawsForAll_le st (span s.pc 2)
  have hexec : (fetched s st).granted 4 := granted_fetched (granted_mono hg (Nat.add_le_add_right hfetch 4))
  obtain ⟨t, ht⟩ := exec_completes (fetched_mmu s st) hexec i
  refine ⟨advancePc 2 t, ?_⟩
  rw [step_granted hm (granted_mono hg (hfetch.trans (by decide))), dispatchOpcode_present hdec, ht, andThen_next]

end

end Sys2Proof.Machine
end

section
/-! The `reset` transaction (70_reset_and_hazards.md R240): every register at its reset value, the environment's draws
kept. -/

namespace Sys2Proof.Machine

theorem transact_reset (s : State) : transact .reset s = .next (resetBlock s, .done) := rfl

theorem sameRegisters_resetBlock (s : State) : State.reset.sameRegisters (resetBlock s) := by
  simp [State.sameRegisters]

/-- A coming draw is read from the list and the count, and `reset` keeps both. -/
@[simp] theorem drawAt_resetBlock (s : State) (k : Nat) : (resetBlock s).drawAt k = s.drawAt k := by
  simp [State.drawAt]

/-- Settles O7: the transaction answers `resetBlock`, the reset state with the draws and the parameter kept. -/
theorem resetTransactionClears : Obligations.ResetTransactionClears := fun s =>
  ⟨resetBlock s, transact_reset s, sameRegisters_resetBlock s, resetBlock_mmu s, drawAt_resetBlock s,
    resetBlock_abcdVDiffers s⟩

end Sys2Proof.Machine
end
